-- ==== Sys2Proof/Word.lean ====
section
/-! DEFINITION. The block's word types (10_state.md, 30_encoding.md). All quantities are unsigned (R5). -/

namespace Sys2Proof

/-- A byte: a payload byte, an output byte or a symbol (`SYM_BITS = 8`, R4). -/
abbrev Byte := BitVec 8

/-- A handle: a 9-bit index into NODE (`HB = 9`, R4, R23). -/
abbrev Handle := BitVec 9

/-- A node word, format N, as the host writes it (`NODE_BITS = 19`, R84). -/
abbrev NodeWord := BitVec 19

/-- A node word with its valid flag in front, as the host reads it (R85). -/
abbrev NodeReadWord := BitVec 20

end Sys2Proof
end

