-- ==== Sys2Proof/Syntax.lean ====
section
/-! DEFINITION. The instructions (R89) and the entries of the node table (R34). -/

namespace Sys2Proof

/-- The complete instruction list (R89), one constructor per row of spec/opcode_table.json. No
instruction has an operand (R37, R81, R131). -/
inductive Instr where
  /-- DL, stream bit 0: descend left (R112). -/
  | dl
  /-- DR, stream bit 1: descend right (R113). -/
  | dr
  /-- START, a command word with bit 0 set: begin a decode run (R131). -/
  | start
  deriving DecidableEq, Repr

/-- A valid entry of the node table (R34); an entry nothing has written is the absence of one. -/
inductive NodeEntry where
  /-- `leaf(sym)`: holds a byte value. -/
  | leaf (sym : Byte)
  /-- `internal(left, right)`: holds the handles of its two children. -/
  | internal (left right : Handle)
  deriving DecidableEq, Repr

/-- The encoded form of an instruction: the two places one comes from (R80). -/
inductive Encoded (cw : Nat) where
  /-- Format S: one stream bit (R81). -/
  | streamBit (b : Bool)
  /-- Format C: a `CW`-bit word written to register 0, CTRL (R83). -/
  | command (v : BitVec cw)
  deriving DecidableEq, Repr

end Sys2Proof
end

