-- ==== Sys2Proof/Decode.lean ====
section
/-! DEFINITION. Formats S, C and N (30_encoding.md): decoding of a stream bit, of a command word and
of a node word, and the encoders written from the same tables. -/

namespace Sys2Proof

/-- Why an encoded form is no instruction. -/
inductive Reject where
  /-- A command word with bit 0 = 0: a no-op whatever its other bits (R90, R132). -/
  | noCommand
  deriving DecidableEq, Repr

/-- What the decoder answers. -/
inductive Decoded where
  | instr (i : Instr)
  | rejected (r : Reject)
  deriving DecidableEq, Repr

/-- The instruction a decoder's answer holds. -/
def Decoded.toOption : Decoded → Option Instr
  | .instr i => some i
  | .rejected _ => none

/-- The bit of a payload byte that BITIDX selects: bit `7 - BITIDX` (R29, R51), so that `BITIDX = 0`
selects the most significant bit. -/
def streamBit (B : Byte) (bitidx : BitVec 3) : Bool := B.getLsbD (7 - bitidx.toNat)

/-- Format S (R81): `dir = 0` is DL, `dir = 1` is DR. Total: no illegal encoding (R90). -/
def decodeStreamBit (b : Bool) : Instr := if b then .dr else .dl

/-- Format C (R83): bit 0 = 1 is START whatever the reserved bits; bit 0 = 0 is no command. -/
def decodeCommand {cw : Nat} (v : BitVec cw) : Decoded :=
  if v.getLsbD 0 then .instr .start else .rejected .noCommand

/-- The decoder: total on every encoded form (R80, R90). -/
def decode {cw : Nat} : Encoded cw → Decoded
  | .streamBit b => .instr (decodeStreamBit b)
  | .command v => decodeCommand v

/-- The encoder (R81, R83). A command word's reserved bits are written 0 (R83). -/
def encode (cw : Nat) : Instr → Encoded cw
  | .dl => .streamBit false
  | .dr => .streamBit true
  | .start => .command (BitVec.ofNat cw 1)

/-- Format N (R84): the node word of a valid entry: bit 18 and the symbol for a leaf, reserved bits 0
(R85); `512 · left + right` for an internal node. -/
def encodeNode : NodeEntry → NodeWord
  | .leaf s => BitVec.ofNat 19 (0x40000 + s.toNat)
  | .internal l r => BitVec.ofNat 19 (512 * l.toNat + r.toNat)

/-- Format N (R84, R85): `w[18] = 1` is `leaf(w[7:0])`, `w[18] = 0` is `internal(w[17:9], w[8:0])`.
The reserved bits 17:8 of a leaf word are discarded. Every word is legal (R90). -/
def decodeNode (w : NodeWord) : NodeEntry :=
  if w.getLsbD 18 then .leaf (w.extractLsb' 0 8)
  else .internal (w.extractLsb' 9 9) (w.extractLsb' 0 9)

/-- What the host reads of an entry (R85): `{valid, word}`, 0 for an invalid one. -/
def nodeReadWord : Option NodeEntry → NodeReadWord
  | none => 0
  | some e => BitVec.ofNat 20 (0x80000 + (encodeNode e).toNat)

/-- A payload byte that holds stream bit `b` as its first bit, bit 7 (R51), the rest 0. -/
def firstBitByte (b : Bool) : Byte := if b then 0x80#8 else 0x00#8

/-- The host's word for a row of spec/opcode_table.json. A row of 1 to 8 bits is format S: `w`'s bit 0
is `dir`, laid out where the engine takes its first stream bit, bit 7 of a payload byte. Any other row
is format C, a command word of the default `CW = 32` bits; its width in the table is the text
"CW (default 32)", so a row the table gives no number of bits is read so too (assumption 11). -/
def decodeTableWord (nbits w : Nat) : Option Instr :=
  if 1 ≤ nbits ∧ nbits ≤ 8 then
    some (decodeStreamBit (streamBit (firstBitByte (w.testBit 0)) 0))
  else (decodeCommand (BitVec.ofNat 32 w)).toOption

end Sys2Proof
end

