-- ==== Sys2Proof/Config.lean ====
section
/-! DEFINITION. What an implementation fixes (the parameters of R4) and the free values of the spec
(93_implementation_defined.md U1, U2). -/

namespace Sys2Proof

/-- The parameters the spec leaves OPEN and a model takes as an argument (R4). `HDR_INT_BYTES` is
derived (`Params.hdrIntBytes`); `BUS_MAP` is not needed at the level of host operations (R60). -/
structure Params where
  /-- `CW`: width of SYMCOUNT, PAYLEN, EMITTED, BYTEPOS and of the register data port (D2). -/
  cw : Nat
  /-- `PAY_CAP`: bytes in the payload buffer (D4). -/
  payCap : Nat
  /-- `OUT_CAP`: bytes in the output buffer (D4). -/
  outCap : Nat
  /-- `HDR_BIG_ENDIAN`: byte order of a header integer, environment only (D23). -/
  hdrBigEndian : Bool
  deriving DecidableEq, Repr

/-- `HDR_INT_BYTES = CW / 8` (R4, D23). -/
def Params.hdrIntBytes (P : Params) : Nat := P.cw / 8

/-- `NODE_SLOTS = 2^HB` (R4, R34). -/
def nodeSlots : Nat := 512

/-- DESIGN CHOICE: the parameters of the machine behind the host's fixed names, the spec's own
defaults (R4; assumption 1). Every operation of the model takes the parameters as an argument. -/
def Config.params : Params where
  cw := 32
  payCap := 65536
  outCap := 65536
  hdrBigEndian := false

/-- Free value (U1, D31; assumption 2): the byte of PAY at an index nothing has written since reset
number `epoch`. Stable per location and per reset, under no law. -/
opaque Config.payPowerUp (epoch index : Nat) : Byte

/-- Free value (U1, D31; assumption 2): the byte of OUT at an index nothing has written since reset
number `epoch`. -/
opaque Config.outPowerUp (epoch index : Nat) : Byte

/-- Free value (U2; assumption 3): draw number `n` of a host NodeRead while STATE = RUN. -/
opaque Config.freeNodeWord (n : Nat) : NodeReadWord

/-- Free value (U2; assumption 3): draw number `n` of a host PayRead or OutRead while STATE = RUN. -/
opaque Config.freeByte (n : Nat) : Byte

end Sys2Proof
end

