-- ==== Sys2Proof/Machine/State.lean ====
section
/-! DEFINITION. The machine's state (10_state.md): everything R20 gives the block, and the model's own
fields for the host's moves and for free values. Plain data. -/

namespace Sys2Proof.Machine

/-- The register STATE (R21). -/
inductive RunState where
  /-- No run since reset. -/
  | idle
  /-- A run is in progress and the engine steps. -/
  | run
  /-- The last run emitted exactly SYMCOUNT symbols. -/
  | done
  /-- The last START or the last run ended with an error. -/
  | error
  deriving DecidableEq, Repr

/-- The register ERR: exactly four values (R22, U3). -/
inductive ErrCode where
  | none
  /-- The payload ran out: the source's TruncatedPayload (R191). -/
  | trunc
  /-- The walk needed an invalid node entry (R192). -/
  | tree
  /-- A count exceeded a capacity at START (R193). -/
  | alloc
  deriving DecidableEq, Repr

/-- The block: the complete state of R20, for count registers of `cw` bits. `NODE`, `PAY` and `OUT`
are lists of the locations written since reset, addresses strictly rising (assumption 20). -/
structure Block (cw : Nat) where
  /-- STATE (R21). -/
  runState : RunState
  /-- ERR (R22). -/
  err : ErrCode
  /-- ROOT: handle of the tree's root (R23). -/
  root : Handle
  /-- SYMCOUNT: number of symbols the run must emit (R24). -/
  symcount : BitVec cw
  /-- PAYLEN: number of payload bytes that belong to the run (R25). -/
  paylen : BitVec cw
  /-- CUR: the current tree pointer (R26). -/
  cur : Handle
  /-- EMITTED: the emitted-symbol counter (R27). -/
  emitted : BitVec cw
  /-- BYTEPOS: index of the byte that holds the next stream bit (R28). -/
  bytepos : BitVec cw
  /-- BITIDX: how many bits of that byte have been consumed (R29). -/
  bitidx : BitVec 3
  /-- NODE: the node table (R34); a handle that is not listed is `invalid`. -/
  node : List (Nat × NodeEntry)
  /-- PAY: the payload buffer (R35); an index that is not listed holds an unspecified byte (U1). -/
  pay : List Host.Cell
  /-- OUT: the output buffer (R36); an index that is not listed holds an unspecified byte (U1). -/
  out : List Host.Cell
  /-- The MODEL's own: how many RESETs have drawn PAY and OUT anew (U1; assumption 2). -/
  epoch : Nat
  deriving DecidableEq, Repr

/-- The host operations of R130. START is `regWrite 0 v` with `v[0] = 1` (R131). -/
inductive HostOp (cw : Nat) where
  | regRead (n : Nat)
  | regWrite (n : Nat) (v : BitVec cw)
  | nodeWrite (h : Handle) (w : NodeWord)
  | nodeRead (h : Handle)
  | payWrite (i : Nat) (B : Byte)
  | payRead (i : Nat)
  | outRead (i : Nat)
  | reset
  deriving DecidableEq, Repr

/-- One place in the total order of R142: whose move it is. -/
inductive Turn (cw : Nat) where
  /-- The engine's. -/
  | engine
  /-- The host's, with its operation. -/
  | host (op : HostOp cw)
  deriving DecidableEq, Repr

/-- What a host operation returns (R130). -/
inductive Reply (cw : Nat) where
  /-- RegRead: a `CW`-bit word. -/
  | word (v : BitVec cw)
  /-- NodeRead: a 20-bit `{valid, word}`. -/
  | node (v : NodeReadWord)
  /-- PayRead, OutRead: a byte. -/
  | byte (v : Byte)
  deriving DecidableEq, Repr

/-- The machine at any parameters (R4): the block, and the host's side of it. -/
structure State.At (P : Params) extends Block P.cw where
  /-- The MODEL's own: the moves of host and engine still to come, in order; when none is left the
  engine moves alone (R142; assumption 4). -/
  turns : List (Turn P.cw)
  /-- The MODEL's own: what the last host operation returned (assumption 6). -/
  reply : Option (Reply P.cw)
  /-- The MODEL's own: how many fresh values (U2) have been drawn (assumption 3). -/
  draws : Nat
  deriving DecidableEq, Repr

/-- The machine at the spec's default parameters (R4; assumption 1). -/
abbrev State : Type := State.At Config.params

/-- The reasons a step of the model stops. The spec's own errors are states, not stops (R198). -/
inductive Fault where
  /-- The engine would read PAY at an index at or above PAY_CAP, which does not exist (R59). Raised by
  the fetch (`fetch`). SAFE: the model stops where the spec says no run comes (assumption 7). -/
  | payIndexOutOfRange
  /-- The engine would write OUT at an index at or above OUT_CAP, which does not exist (R59). Raised by
  DL and DR (`emit`). SAFE: the model stops where the spec says no run comes (assumption 7). -/
  | outIndexOutOfRange
  deriving DecidableEq, Repr

/-- The reasons a step of the model refuses. -/
inductive Refusal where
  /-- An instruction without a meaning, raised by an arm of `exec`: no arm does. SAFE. -/
  | notModelled (mnemonic : String)
  deriving DecidableEq, Repr

/-- The block after RESET (R40), with the draw of PAY and OUT numbered `epoch`. -/
def Block.reset (cw : Nat) (epoch : Nat) : Block cw where
  runState := .idle
  err := .none
  root := 0
  symcount := 0
  paylen := 0
  cur := 0
  emitted := 0
  bytepos := 0
  bitidx := 0
  node := []
  pay := []
  out := []
  epoch := epoch

/-- The machine at any parameters right after reset (R40), with no move of the host pending. -/
def State.At.reset (P : Params) : State.At P where
  toBlock := Block.reset P.cw 0
  turns := []
  reply := none
  draws := 0

/-- The machine right after reset (R40). -/
def State.reset : State := State.At.reset Config.params

/-- The state with another block: what every effect on the block goes through. -/
def State.At.withBlock {P : Params} (s : State.At P) (b : Block P.cw) : State.At P :=
  { s with toBlock := b }

end Sys2Proof.Machine
end

