-- ==== Sys2Proof/Machine/Ops.lean ====
section
/-! DEFINITION. The named operations over memory and registers: sparse memory, the reads of NODE, PAY
and OUT, the error entry (R198), the pc and its advance (R117). -/

namespace Sys2Proof.Machine

/-! ### Sparse memory: (address, value) pairs, addresses strictly rising -/

/-- What was last written at `a`; `none` where nothing has been written since reset. The one place
that says what an unlisted address reads as (assumption 20). -/
def Memory.read {α : Type} : List (Nat × α) → Nat → Option α
  | [], _ => none
  | (k, v) :: m, a => if a = k then some v else Memory.read m a

/-- Write `v` at `a`, keeping the addresses strictly rising. -/
def Memory.write {α : Type} : List (Nat × α) → Nat → α → List (Nat × α)
  | [], a, v => [(a, v)]
  | (k, w) :: m, a, v =>
    if a < k then (a, v) :: (k, w) :: m
    else if a = k then (a, v) :: m
    else (k, w) :: Memory.write m a v

/-- The canonical form: addresses strictly rising. An unlisted address reads as `none`, which no entry
can hold, so memories that read alike are equal lists. -/
abbrev Memory.wf {α : Type} (m : List (Nat × α)) : Prop := (m.map Prod.fst).Pairwise (· < ·)

/-- Every listed address lies below `n`. -/
abbrev Memory.below {α : Type} (m : List (Nat × α)) (n : Nat) : Prop := ∀ c ∈ m, c.1 < n

variable {cw : Nat}

/-! ### The three memories -/

/-- `NodeRead(h)` of the engine (R6): `none` is `invalid`. All 512 handles exist (R23, R59). -/
def nodeAt (b : Block cw) (h : Handle) : Option NodeEntry := Memory.read b.node h.toNat

/-- The byte `PAY[i]`, for `i < PAY_CAP`: the byte written, else the free byte of U1. -/
def payAt (b : Block cw) (i : Nat) : Byte := (Memory.read b.pay i).getD (Config.payPowerUp b.epoch i)

/-- The byte `OUT[i]`, for `i < OUT_CAP`: the byte written, else the free byte of U1. -/
def outAt (b : Block cw) (i : Nat) : Byte := (Memory.read b.out i).getD (Config.outPowerUp b.epoch i)

/-- `NODE[h] <- e` (R135). -/
def writeNode (b : Block cw) (h : Handle) (e : NodeEntry) : Block cw :=
  { b with node := Memory.write b.node h.toNat e }

/-- `PAY[i] <- B` (R137), for `i < PAY_CAP`. -/
def writePay (b : Block cw) (i : Nat) (B : Byte) : Block cw :=
  { b with pay := Memory.write b.pay i B }

/-- `OutWrite(i, v)` (R6), for `i < OUT_CAP`. -/
def writeOut (b : Block cw) (i : Nat) (v : Byte) : Block cw :=
  { b with out := Memory.write b.out i v }

/-! ### Error entry -/

/-- The error entry `raise E` (R198), the block's only form of taking an exception: STATE and ERR, and
nothing else. There is no return from it: the host leaves ERROR by START (`startRun`) or by RESET
(`Block.reset`) (R200). -/
def raiseError (e : ErrCode) (b : Block cw) : Block cw := { b with runState := .error, err := e }

/-! ### The program counter -/

/-- `BITPOS = 8 · BYTEPOS + BITIDX`, derived notation (R30). -/
def bitpos (b : Block cw) : Nat := 8 * b.bytepos.toNat + b.bitidx.toNat

/-- `advance_pc()` (R117). -/
def advancePc (b : Block cw) : Block cw :=
  if b.bitidx = 7 then { b with bitidx := 0, bytepos := b.bytepos + 1 }
  else { b with bitidx := b.bitidx + 1 }

/-! ### From the block to the machine -/

/-- The outcome of an operation on the block, as an outcome of the machine `s` holds it in. -/
def onBlock {P : Params} (s : State.At P) :
    Host.Outcome (Block P.cw) Fault Refusal → Host.Outcome (State.At P) Fault Refusal
  | .next b => .next (s.withBlock b)
  | .fault r => .fault r
  | .refused r => .refused r

end Sys2Proof.Machine
end

