-- ==== Sys2Proof/Machine/Start.lean ====
section
/-! DEFINITION. The START command (R131, R132). -/

namespace Sys2Proof.Machine

/-- The first four lines of START (R131): ERR and the run registers. -/
def clearRun {cw : Nat} (b : Block cw) : Block cw :=
  { b with err := .none, cur := b.root, emitted := 0, bytepos := 0, bitidx := 0 }

/-- START (R131): dropped while STATE = RUN (R132); else the run registers are set up, ALLOC is tested
before the SYMCOUNT = 0 shortcut (R197), and the run begins. -/
def startRun (P : Params) (b : Block P.cw) : Block P.cw :=
  if b.runState = .run then b
  else if P.outCap < b.symcount.toNat ∨ P.payCap < b.paylen.toNat then
    raiseError .alloc (clearRun b)
  else if b.symcount = 0 then { clearRun b with runState := .done }
  else { clearRun b with runState := .run }

/-- START, begin a decode run (R131). -/
def execStart {P : Params} (s : State.At P) : Host.Outcome (State.At P) Fault Refusal :=
  onBlock s (.next (startRun P s.toBlock))

end Sys2Proof.Machine
end

