-- ==== Sys2Proof/Machine/Operands.lean ====
section
/-! DEFINITION. Operands. The instructions have none of their own (R37, R81); the implicit ones are the
stream bit the pc names and the child of the current node. -/

namespace Sys2Proof.Machine

variable {cw : Nat}

/-- Which child a step descends to: bit 0 left, bit 1 right (R81). -/
inductive Dir where
  | left
  | right
  deriving DecidableEq, Repr

/-- The direction a stream bit selects: 0 left, 1 right (R81). -/
def dirOf (b : Bool) : Dir := if b then .right else .left

/-- `nxt` of DL and DR (R112, R113): the child of an internal node in the instruction's direction; at a
leaf, which happens only at a leaf root, the current handle itself (R115). -/
def childOf (d : Dir) (cur : Handle) : NodeEntry → Handle
  | .internal l r => match d with
    | .left => l
    | .right => r
  | .leaf _ => cur

/-- Stream bit `k`: `PAY[k div 8][7 - (k mod 8)]` (R5, R52, R82). -/
def streamBitAt (b : Block cw) (k : Nat) : Bool :=
  streamBit (payAt b (k / 8)) (BitVec.ofNat 3 (k % 8))

end Sys2Proof.Machine
end

