-- ==== Sys2Proof/Machine/TreeWalk.lean ====
section
/-! DEFINITION. The TreeWalk step (40_treewalk_steps.md): the tests of the fetch, `land`, and the
meanings of DL and DR. Every operation takes the parameters `P`. -/

namespace Sys2Proof.Machine

/-- The tests of the fetch, in their order (R111, R197): the error to raise, or the entry NODE[CUR]. -/
inductive FetchTest where
  | error (e : ErrCode)
  | entry (e : NodeEntry)
  deriving DecidableEq, Repr

/-- `if BYTEPOS >= PAYLEN then raise TRUNC`, then `e <- NodeRead(CUR)`, `if e = invalid then raise
TREE` (R111). -/
def fetchTest {cw : Nat} (b : Block cw) : FetchTest :=
  if b.paylen.toNat ≤ b.bytepos.toNat then .error .trunc
  else match nodeAt b b.cur with
    | none => .error .tree
    | some e => .entry e

/-- A leaf is reached (R114): write its symbol to `OUT[EMITTED]`, count it, go back to the root, and
stop when the counter reaches SYMCOUNT (R116). -/
def emit (P : Params) (sym : Byte) (b : Block P.cw) : Host.Outcome (Block P.cw) Fault Refusal :=
  if b.emitted.toNat < P.outCap then
    let count := b.emitted + 1
    .next { writeOut b b.emitted.toNat sym with
      emitted := count
      cur := b.root
      runState := if count = b.symcount then .done else b.runState }
  else .fault .outIndexOutOfRange

/-- `land(nxt)`, the common tail of DL and DR (R114). -/
def land (P : Params) (nxt : Handle) (b : Block P.cw) : Host.Outcome (Block P.cw) Fault Refusal :=
  match nodeAt b nxt with
  | none => .next (raiseError .tree b)
  | some (.leaf sym) => emit P sym (advancePc b)
  | some (.internal _ _) => .next { advancePc b with cur := nxt }

/-- What DL and DR share (R112, R113): executed only while STATE = RUN (R110), they make the tests of
the fetch, take the child of NODE[CUR] in their direction and land on it. -/
def descend (P : Params) (d : Dir) (b : Block P.cw) : Host.Outcome (Block P.cw) Fault Refusal :=
  if b.runState = .run then
    match fetchTest b with
    | .error e => .next (raiseError e b)
    | .entry e => land P (childOf d b.cur e) b
  else .next b

/-- DL, descend left (R112). -/
def execDl {P : Params} (s : State.At P) : Host.Outcome (State.At P) Fault Refusal :=
  onBlock s (descend P .left s.toBlock)

/-- DR, descend right (R113). -/
def execDr {P : Params} (s : State.At P) : Host.Outcome (State.At P) Fault Refusal :=
  onBlock s (descend P .right s.toBlock)

end Sys2Proof.Machine
end

