-- ==== Sys2Proof/Machine/Dispatch.lean ====
section
/-! DEFINITION. Which meaning each instruction has: one arm per constructor of `Instr`. -/

namespace Sys2Proof.Machine

def exec (i : Instr) (s : State) : Host.Outcome State Fault Refusal :=
  match i with
  | .dl => Sys2Proof.Machine.execDl s
  | .dr => Sys2Proof.Machine.execDr s
  | .start => Sys2Proof.Machine.execStart s

end Sys2Proof.Machine
end

