-- ==== Sys2Proof/Machine/Engine.lean ====
section
/-! DEFINITION. The engine: the fetch of one stream bit (R111), one step of the block, a run of many,
and the engine's move in the machine, all at any parameters. -/

namespace Sys2Proof.Machine

/-- What the fetch gives: an error to raise (R111), the instruction the stream bit selects, or the
model's own stop. -/
inductive Fetched where
  | error (e : ErrCode)
  | instr (i : Instr)
  | fault (f : Fault)
  deriving DecidableEq, Repr

/-- Fetch (R111): the tests, then `B <- PayRead(BYTEPOS)`, `b <- B[7 - BITIDX]`, and the instruction `b`
selects (R110). -/
def fetch (P : Params) (b : Block P.cw) : Fetched :=
  match fetchTest b with
  | .error e => .error e
  | .entry _ =>
    if b.bytepos.toNat < P.payCap then
      .instr (decodeStreamBit (streamBit (payAt b b.bytepos.toNat) b.bitidx))
    else .fault .payIndexOutOfRange

/-- The dispatch of `exec` at any parameters: the same meanings. -/
def execAt {P : Params} (i : Instr) (s : State.At P) : Host.Outcome (State.At P) Fault Refusal :=
  match i with
  | .dl => execDl s
  | .dr => execDr s
  | .start => execStart s

/-- What the meanings do to the block they run on. -/
def execBlock (P : Params) (i : Instr) (b : Block P.cw) : Host.Outcome (Block P.cw) Fault Refusal :=
  match i with
  | .dl => descend P .left b
  | .dr => descend P .right b
  | .start => .next (startRun P b)

/-- One step of the engine (R110): only while STATE = RUN. In IDLE, DONE and ERROR it does nothing. -/
def engineStep (P : Params) (b : Block P.cw) : Host.Outcome (Block P.cw) Fault Refusal :=
  if b.runState = .run then
    match fetch P b with
    | .error e => .next (raiseError e b)
    | .instr i => execBlock P i b
    | .fault f => .fault f
  else .next b

/-- `k` steps of the engine, with no host operation between them. -/
def runEngine (P : Params) : Nat → Block P.cw → Host.Outcome (Block P.cw) Fault Refusal
  | 0, b => .next b
  | k + 1, b =>
    match engineStep P b with
    | .next b' => runEngine P k b'
    | .fault f => .fault f
    | .refused r => .refused r

/-- The engine's move in the machine (R110): fetch, then `run` of the instruction fetched. `run` is the
dispatch: `exec` at the default parameters, `execAt` at any. -/
def engineTurn {P : Params} (run : Instr → State.At P → Host.Outcome (State.At P) Fault Refusal)
    (s : State.At P) : Host.Outcome (State.At P) Fault Refusal :=
  if s.runState = .run then
    match fetch P s.toBlock with
    | .error e => .next (s.withBlock (raiseError e s.toBlock))
    | .instr i => run i s
    | .fault f => .fault f
  else .next s

end Sys2Proof.Machine
end

