-- ==== Sys2Proof/Machine/Flags.lean ====
section
/-! DEFINITION. The status: the numbers of STATE and ERR (R21, R22) and the STATUS word (R32, R91). -/

namespace Sys2Proof.Machine

/-- The 2-bit number of STATE (R21). -/
def RunState.code : RunState → BitVec 2
  | .idle => 0
  | .run => 1
  | .done => 2
  | .error => 3

/-- The 4-bit number of ERR (R22). Codes 4 to 15 are never produced. -/
def ErrCode.code : ErrCode → BitVec 4
  | .none => 0
  | .trunc => 1
  | .tree => 2
  | .alloc => 3

/-- The STATUS view (R32): `STATUS[1:0] = STATE`, `STATUS[3:2] = 0`, `STATUS[7:4] = ERR`, higher bits
zero. -/
def statusWord {cw : Nat} (b : Block cw) : BitVec cw :=
  ((b.err.code ++ 0#2 : BitVec 6) ++ b.runState.code : BitVec 8).setWidth cw

end Sys2Proof.Machine
end

