-- ==== Sys2Proof/Machine/HostOps.lean ====
section
/-! DEFINITION. The host operations (41_host_commands.md) and the host's move in the machine, at any
parameters. -/

namespace Sys2Proof.Machine

variable {cw : Nat}

/-- `RegRead(n)` (R133, R33): zero-extended to `CW` bits, 0 for CTRL and for numbers 9 and above. -/
def regRead (b : Block cw) (n : Nat) : BitVec cw :=
  match n with
  | 1 => statusWord b
  | 2 => b.root.setWidth cw
  | 3 => b.symcount
  | 4 => b.paylen
  | 5 => b.cur.setWidth cw
  | 6 => b.emitted
  | 7 => b.bytepos
  | 8 => b.bitidx.setWidth cw
  | _ => 0

/-- `RegWrite(n, v)` of a register that stores (R134): ROOT takes the low 9 bits (R33); a read-only
register, CTRL's place and numbers 9 and above store nothing. -/
def storeReg (b : Block cw) (n : Nat) (v : BitVec cw) : Block cw :=
  match n with
  | 2 => { b with root := v.setWidth 9 }
  | 3 => { b with symcount := v }
  | 4 => { b with paylen := v }
  | _ => b

/-- The effect of a host operation on the block (R130 to R140). While STATE = RUN every write is dropped
and only RESET has an effect (R62, R142). -/
def hostEffect (P : Params) (op : HostOp P.cw) (b : Block P.cw) : Block P.cw :=
  match op with
  | .regWrite n v =>
    if b.runState = .run then b
    else if n = 0 then
      match decodeCommand v with
      | .instr _ => startRun P b
      | .rejected _ => b
    else storeReg b n v
  | .nodeWrite h w => if b.runState = .run then b else writeNode b h (decodeNode w)
  | .payWrite i B => if b.runState = .run then b else if i < P.payCap then writePay b i B else b
  | .reset => Block.reset P.cw (b.epoch + 1)
  | .regRead _ => b
  | .nodeRead _ => b
  | .payRead _ => b
  | .outRead _ => b

/-- What a host operation returns (R130): a register's value in any state (R133); a memory's value when
STATE ≠ RUN, 0 beyond the space (R136, R138, R139); during RUN fresh value number `draw` (U2). -/
def hostReply (P : Params) (op : HostOp P.cw) (b : Block P.cw) (draw : Nat) : Option (Reply P.cw) :=
  match op with
  | .regRead n => some (.word (regRead b n))
  | .nodeRead h =>
    some (.node (if b.runState = .run then Config.freeNodeWord draw else nodeReadWord (nodeAt b h)))
  | .payRead i =>
    some (.byte (if b.runState = .run then Config.freeByte draw
      else if i < P.payCap then payAt b i else 0))
  | .outRead i =>
    some (.byte (if b.runState = .run then Config.freeByte draw
      else if i < P.outCap then outAt b i else 0))
  | .regWrite _ _ => none
  | .nodeWrite _ _ => none
  | .payWrite _ _ => none
  | .reset => none

/-- Whether a host operation draws a fresh value: a memory read during RUN (U2). -/
def hostDraws (op : HostOp cw) (b : Block cw) : Bool :=
  match op with
  | .nodeRead _ => b.runState = .run
  | .payRead _ => b.runState = .run
  | .outRead _ => b.runState = .run
  | _ => false

/-- The state with the reply of `op` recorded and its draw counted. -/
def recordReply {P : Params} (op : HostOp P.cw) (s : State.At P) : State.At P :=
  { s with
    reply := hostReply P op s.toBlock s.draws
    draws := if hostDraws op s.toBlock then s.draws + 1 else s.draws }

/-- The host's move in the machine: a command word written to CTRL runs the instruction it decodes to
(R134, R89), or does nothing (R132); every other operation has its effect on the block. `run` is the
dispatch, as in `engineTurn`. -/
def hostTurn {P : Params} (run : Instr → State.At P → Host.Outcome (State.At P) Fault Refusal)
    (op : HostOp P.cw) (s : State.At P) : Host.Outcome (State.At P) Fault Refusal :=
  match op with
  | .regWrite 0 v =>
    match decodeCommand v with
    | .instr i => run i (recordReply op s)
    | .rejected _ => .next (recordReply op s)
  | _ => .next ((recordReply op s).withBlock (hostEffect P op s.toBlock))

/-- One move of the machine (R142): the next turn's agent; with no turn pending, the engine (R230). -/
def takeTurn {P : Params} (run : Instr → State.At P → Host.Outcome (State.At P) Fault Refusal)
    (s : State.At P) : Host.Outcome (State.At P) Fault Refusal :=
  match s.turns with
  | [] => engineTurn run s
  | .engine :: rest => engineTurn run { s with turns := rest }
  | .host op :: rest => hostTurn run op { s with turns := rest }

/-! ### Placing an instruction where the next move takes it -/

/-- The payload byte `B` with the bit that `bitidx` selects (R29) set to `bit`, its other bits kept. -/
def setStreamBit (bit : Bool) (bitidx : BitVec 3) (B : Byte) : Byte :=
  let mask := 0x80#8 >>> bitidx.toNat
  if bit then B ||| mask else B &&& ~~~mask

/-- The block where its next fetch happens: in a run, as it is; else as START leaves it, at stream bit 0
with CUR = ROOT, since no other position can be the next one (R131, R141). -/
def nextFetch (b : Block cw) : Block cw :=
  if b.runState = .run then b else { clearRun b with runState := .run }

/-- The block with the stream bit `bit` where its next fetch takes it: the bit in PAY at the pc, PAYLEN
beyond the pc and within PAY_CAP, SYMCOUNT beyond EMITTED and within OUT_CAP (a step happens only with
EMITTED < SYMCOUNT, R111), and a valid NODE[CUR]. What already holds is left alone. -/
def placeStreamBit (P : Params) (bit : Bool) (b : Block P.cw) : Block P.cw :=
  let f := nextFetch b
  { f with
    paylen := if f.bytepos.toNat < f.paylen.toNat ∧ f.paylen.toNat ≤ P.payCap then f.paylen
      else f.bytepos + 1
    symcount := if f.emitted.toNat < f.symcount.toNat ∧ f.symcount.toNat ≤ P.outCap then f.symcount
      else f.emitted + 1
    node := match nodeAt f f.cur with
      | none => Memory.write f.node f.cur.toNat (.internal f.cur f.cur)
      | some _ => f.node
    pay := Memory.write f.pay f.bytepos.toNat
      (setStreamBit bit f.bitidx ((Memory.read f.pay f.bytepos.toNat).getD 0)) }

/-- The machine with a row's word where the next move takes it: a stream bit at the engine's pc and the
engine's turn, or a command word as the host's next RegWrite(0, w) (assumption 10). -/
def placeWord {P : Params} (s : State.At P) (nbits w : Nat) : State.At P :=
  if 1 ≤ nbits ∧ nbits ≤ 8 then
    { s.withBlock (placeStreamBit P (w.testBit 0) s.toBlock) with turns := .engine :: s.turns }
  else { s with turns := .host (.regWrite 0 (BitVec.ofNat P.cw w)) :: s.turns }

end Sys2Proof.Machine
end

