-- ==== Sys2Proof/Machine/Step.lean ====
section
/-! DEFINITION. One step of the machine, at the default parameters and at any, and the host's placing of
an instruction. -/

namespace Sys2Proof.Machine

/-- One step: one move of the host or of the engine (R110, R130, R142). -/
def step (s : State) : Host.Outcome State Fault Refusal := takeTurn exec s

/-- One step at any parameters: the same moves, with the dispatch at these parameters (R4). -/
def stepAt {P : Params} (s : State.At P) : Host.Outcome (State.At P) Fault Refusal := takeTurn execAt s

/-- The machine at any parameters, as the host's interface has it (R4). -/
def coreAt (P : Params) : Host.Core :=
  { State := State.At P, Fault := Fault, Refusal := Refusal, step := stepAt, reset := State.At.reset P }

/-- `s` with the instruction of a table row stored where `step` fetches its next one. -/
def State.withFetchWord (s : State) (nbits w : Nat) : State := placeWord s nbits w

end Sys2Proof.Machine
end

