-- ==== Sys2Proof/Machine/Reference.lean ====
section
/-! DEFINITION. The functional summary of a run (R121): decoding of a bit sequence under a finite binary
tree, and what it means that NODE holds that tree. -/

namespace Sys2Proof.Machine

/-- A finite binary tree in which every internal node has two children (R121, R153). -/
inductive Tree where
  | leaf (sym : Byte)
  | node (left right : Tree)
  deriving DecidableEq, Repr

/-- NODE, reachable from handle `h`, is the tree `T`, every reachable entry valid (R121, R224 (P2)). -/
def treeAt {cw : Nat} (b : Block cw) : Handle → Tree → Prop
  | h, .leaf sym => nodeAt b h = some (.leaf sym)
  | h, .node l r => ∃ hl hr, nodeAt b h = some (.internal hl hr) ∧ treeAt b hl l ∧ treeAt b hr r

/-- Walk from a node, one bit per edge, to a leaf: its symbol and the bits left; `none` if the bits run
out first (R121). -/
def walk : Tree → List Bool → Option (Byte × List Bool)
  | .leaf sym, bits => some (sym, bits)
  | .node _ _, [] => none
  | .node l r, b :: bits => walk (if b then r else l) bits

/-- One codeword from the root (R87): for a root-leaf tree one bit in all, whatever its value (R88,
R115). -/
def decodeSymbol : Tree → List Bool → Option (Byte × List Bool)
  | .leaf _, [] => none
  | .leaf sym, _ :: bits => some (sym, bits)
  | .node l r, bits => walk (.node l r) bits

/-- `dec(T, bits, c)` (R121); `none` is `Truncated`. -/
def dec (T : Tree) : Nat → List Bool → Option (List Byte)
  | 0, _ => some []
  | c + 1, bits =>
    match decodeSymbol T bits with
    | none => none
    | some (sym, rest) => (dec T c rest).map (sym :: ·)

/-- `w` is a codeword of `x` under `T` (R87): the path to a leaf of `x`; under a root-leaf tree any single
bit (R88, R115). -/
def IsCodeword : Tree → List Bool → Byte → Prop
  | .leaf sym, w, x => w.length = 1 ∧ x = sym
  | .node l r, w, x => walk (.node l r) w = some (x, [])

/-- The stream bits of `PAY[0 .. PAYLEN - 1]`, in order (R82, R121). -/
def streamBits {cw : Nat} (b : Block cw) : List Bool :=
  (List.range (8 * b.paylen.toNat)).map (streamBitAt b)

/-- `OUT[0 .. n - 1]`. -/
def outBytes {cw : Nat} (b : Block cw) (n : Nat) : List Byte := (List.range n).map (outAt b)

end Sys2Proof.Machine
end

