-- ==== Sys2Proof/Machine/Codec.lean ====
section
/-! DEFINITION. The environment's reference codec (42_environment_codec.md): freq, build, codes, pack,
compress, decompress. Pure functions on finite data, normative for the environment (R150) and no part
of the block's state (R41). Integers are unbounded. -/

namespace Sys2Proof.Machine.Codec

open Sys2Proof Sys2Proof.Machine

/-! ### Frequency analysis (R151, R152) -/

/-- A FrequencyTable: 256 counts, entry `b` that of byte value `b` (R151). -/
abbrev FreqTable := List Nat

/-- The 256 byte values in ascending order. -/
def byteValues : List Byte := (List.range 256).map (BitVec.ofNat 8)

/-- `freq(X)`: entry `b` is the number of times byte `b` occurs in `X` (R152). -/
def freq (X : List Byte) : FreqTable := byteValues.map (fun b => X.count b)

/-! ### Tree building (R153 to R157) -/

/-- What a TreeNode represents (R153). -/
inductive NodeKind where
  | leaf (sym : Byte)
  | internal (left right : Nat)
  deriving DecidableEq, Repr

/-- A TreeNode of the arena (R153): its kind, its frequency and its parent, absent until merged. -/
structure TreeNode where
  kind : NodeKind
  freq : Nat
  parent : Option Nat
  deriving DecidableEq, Repr

/-- The arena: nodes referenced by handle, their index; grows only at its end (R153). -/
abbrev Arena := List TreeNode

/-- Seeding (R154): one leaf per byte value whose frequency is not zero, in ascending byte value. -/
def seed (t : FreqTable) : Arena :=
  (byteValues.zip t).filterMap fun (b, f) =>
    if f = 0 then none else some { kind := .leaf b, freq := f, parent := none }

/-- The handles of the entries with no parent, ascending. -/
def unmerged (arena : Arena) : List Nat :=
  (List.range arena.length).filter fun h => (arena[h]?).map TreeNode.parent = some none

/-- The kind of the entry at a handle. -/
def kindAt (arena : Arena) (h : Nat) : Option NodeKind := (arena[h]?).map TreeNode.kind

/-- The frequency of the entry at a handle. -/
def freqAt (arena : Arena) (h : Nat) : Nat := ((arena[h]?).map TreeNode.freq).getD 0

/-- The order of selection (R155): smaller frequency first, then lower arena index. -/
def selectedBefore (arena : Arena) (i j : Nat) : Bool :=
  freqAt arena i < freqAt arena j || (freqAt arena i = freqAt arena j && i < j)

/-- The handle of a list that is least in the order of selection. -/
def pickLeast (arena : Arena) : List Nat → Option Nat
  | [] => none
  | h :: hs =>
    match pickLeast arena hs with
    | none => some h
    | some k => some (if selectedBefore arena k h then k else h)

/-- The arena with the parent of handle `h` set to `k`. -/
def setParent (arena : Arena) (h k : Nat) : Arena :=
  arena.modify h fun n => { n with parent := some k }

/-- One merge (R155): the first selected, `a`, becomes the left child, the second, `c`, the right. -/
def mergePair (arena : Arena) (a c : Nat) : Arena :=
  let k := arena.length
  setParent (setParent arena a k) c k ++
    [{ kind := .internal a c, freq := freqAt arena a + freqAt arena c, parent := none }]

/-- One turn of the loop of R155; `none` when fewer than two entries have no parent. -/
def mergeStep (arena : Arena) : Option Arena :=
  match pickLeast arena (unmerged arena) with
  | none => none
  | some a =>
    match pickLeast arena ((unmerged arena).erase a) with
    | none => none
    | some c => some (mergePair arena a c)

/-- The loop of R155, at most `fuel` turns; `n` leaves need `n - 1` (R156). -/
def mergeAll : Nat → Arena → Arena
  | 0, arena => arena
  | fuel + 1, arena =>
    match mergeStep arena with
    | none => arena
    | some arena' => mergeAll fuel arena'

/-- What `build` returns: the arena and the handle of its root (R154). -/
structure Built where
  arena : Arena
  root : Nat
  deriving DecidableEq, Repr

/-- `build(t)` (R154, R155): the root is the one entry with no parent. `none` for an all-zero table, on
which `build` is not called (R157 (b)). -/
def build (t : FreqTable) : Option Built :=
  let arena := mergeAll (seed t).length (seed t)
  match unmerged arena with
  | [] => none
  | root :: _ => some { arena := arena, root := root }

/-! ### Code table and packing (R158 to R160) -/

/-- A CodeTable: byte values with their bit sequences, present values only (R158). -/
abbrev CodeTable := List (Byte × List Bool)

/-- The traversal of R158, left child first, `acc` the bits so far; `fuel` bounds the depth. -/
def codesFrom (arena : Arena) : Nat → Nat → List Bool → CodeTable
  | 0, _, _ => []
  | fuel + 1, h, acc =>
    match kindAt arena h with
    | none => []
    | some (.leaf sym) => [(sym, acc)]
    | some (.internal l r) =>
      codesFrom arena fuel l (acc ++ [false]) ++ codesFrom arena fuel r (acc ++ [true])

/-- `codes(arena, root)` (R158); a root that is a leaf has the 1-bit code `0` (R159). -/
def codes (B : Built) : CodeTable :=
  match kindAt B.arena B.root with
  | some (.leaf sym) => [(sym, [false])]
  | _ => codesFrom B.arena B.arena.length B.root []

/-- The bit sequence of a byte value: that of its first entry, empty for a value that is not present. -/
def codeOf (ct : CodeTable) (x : Byte) : List Bool := (ct.lookup x).getD []

/-- The encoded bits of an input: its codes in input order (R161). -/
def encodeBits (ct : CodeTable) (X : List Byte) : List Bool := X.flatMap (codeOf ct)

/-- The byte whose bit `7 - j` is `f j` (R160). -/
def byteOfBits (f : Nat → Bool) : Byte :=
  BitVec.ofNat 8 ((f 0).toNat * 128 + (f 1).toNat * 64 + (f 2).toNat * 32 + (f 3).toNat * 16 +
    (f 4).toNat * 8 + (f 5).toNat * 4 + (f 6).toNat * 2 + (f 7).toNat)

/-- `pack` (R160) of a bit string of `L` bits: `ceil(L / 8)` bytes, bit `k` of the string at bit
`7 - (k mod 8)` of byte `k div 8`, pad bits 0. -/
def pack (bits : List Bool) : List Byte :=
  (List.range ((bits.length + 7) / 8)).map fun i => byteOfBits fun j => bits.getD (8 * i + j) false

/-- The payload of an input (R161): empty for the empty input, else its packed codes under the tree
built from its frequencies. -/
def payloadOf (X : List Byte) : List Byte :=
  match build (freq X) with
  | none => []
  | some B => pack (encodeBits (codes B) X)

/-! ### The wire format (R92) -/

/-- The errors of the codec (R164, R166, R194). EmptyAlphabet is an InvalidHeader (C2); IOFailure arises
only in the caller around these functions (R166). -/
inductive CodecError where
  | invalidHeader
  | truncatedPayload
  | allocationFailure
  /-- The block reported TREE, or stopped: the host has a fault of its own to report (R166). -/
  | hostFault
  deriving DecidableEq, Repr

/-- A result of the codec. -/
inductive Result where
  | ok (bytes : List Byte)
  | failed (e : CodecError)
  deriving DecidableEq, Repr

/-- The `k` bytes of a header integer, least significant first, turned over when big-endian (R92). -/
def intBytes (P : Params) (n : Nat) : List Byte :=
  let le := (List.range P.hdrIntBytes).map fun j => BitVec.ofNat 8 (n / 256 ^ j)
  if P.hdrBigEndian then le.reverse else le

/-- The value of bytes, least significant first. -/
def valueLE : List Byte → Nat
  | [] => 0
  | B :: Bs => B.toNat + 256 * valueLE Bs

/-- The value of a header integer's bytes (R92). -/
def intValue (P : Params) (bytes : List Byte) : Nat :=
  valueLE (if P.hdrBigEndian then bytes.reverse else bytes)

/-- The length of a header: 257 integers (R92, C1). -/
def headerLen (P : Params) : Nat := 257 * P.hdrIntBytes

/-- The header of `X`: the 256 frequencies, then the symbol count (R92, R161). -/
def header (P : Params) (X : List Byte) : List Byte :=
  (freq X ++ [X.length]).flatMap (intBytes P)

/-- `compress(X)` (R161): an input whose count does not fit a header integer is an AllocationFailure
(D30). -/
def compress (P : Params) (X : List Byte) : Result :=
  if X.length ≤ 2 ^ P.cw - 1 then .ok (header P X ++ payloadOf X)
  else .failed .allocationFailure

/-- Header integer number `j` of a buffer (R92). -/
def headerInt (P : Params) (Z : List Byte) (j : Nat) : Nat :=
  intValue P ((Z.drop (j * P.hdrIntBytes)).take P.hdrIntBytes)

/-- The frequency table of a buffer's header. -/
def headerTable (P : Params) (Z : List Byte) : FreqTable := (List.range 256).map (headerInt P Z)

/-- The symbol count of a buffer's header. -/
def headerCount (P : Params) (Z : List Byte) : Nat := headerInt P Z 256

/-- The payload of a buffer: every byte after the header (R92). -/
def payloadPart (P : Params) (Z : List Byte) : List Byte := Z.drop (headerLen P)

/-! ### Loading and running the block (R165, R166) -/

/-- The node word of an arena entry (R165): `0x40000 + sym`, or `512 · left + right`. -/
def arenaWord (n : TreeNode) : NodeWord :=
  match n.kind with
  | .leaf sym => BitVec.ofNat 19 (0x40000 + sym.toNat)
  | .internal l r => BitVec.ofNat 19 (512 * l + r)

/-- The loading contract (R165), START last: every arena entry at its own handle, ROOT, SYMCOUNT, the
payload, PAYLEN, START. -/
def loadOps (P : Params) (B : Built) (N : Nat) (payload : List Byte) : List (HostOp P.cw) :=
  B.arena.zipIdx.map (fun (n, h) => .nodeWrite (BitVec.ofNat 9 h) (arenaWord n)) ++
  [.regWrite 2 (BitVec.ofNat P.cw B.root), .regWrite 3 (BitVec.ofNat P.cw N)] ++
  payload.zipIdx.map (fun (x, i) => .payWrite i x) ++
  [.regWrite 4 (BitVec.ofNat P.cw payload.length), .regWrite 0 (BitVec.ofNat P.cw 1)]

/-- The block after a sequence of host operations with no engine step between them. -/
def applyOps (P : Params) (ops : List (HostOp P.cw)) (b : Block P.cw) : Block P.cw :=
  ops.foldl (fun b op => hostEffect P op b) b

/-- Wait until STATE ≠ RUN (R163 step 7): at most `8 · PAYLEN + 1` steps (R120). -/
def runToEnd (P : Params) (b : Block P.cw) : Host.Outcome (Block P.cw) Fault Refusal :=
  runEngine P (8 * b.paylen.toNat + 1) b

/-- Result mapping (R166). -/
def mapResult (P : Params) (N : Nat) : Host.Outcome (Block P.cw) Fault Refusal → Result
  | .next b =>
    match b.runState, b.err with
    | .done, _ => .ok (outBytes b N)
    | _, .trunc => .failed .truncatedPayload
    | _, .alloc => .failed .allocationFailure
    | _, _ => .failed .hostFault
  | .fault _ => .failed .hostFault
  | .refused _ => .failed .hostFault

/-- Steps 6 and 7 of `decompress` (R163): the host reports AllocationFailure itself when a count exceeds
a capacity (R165; assumption 14), else loads the block as it stands, starts it and waits. -/
def decodeOnBlock (P : Params) (b : Block P.cw) (B : Built) (N : Nat) (payload : List Byte) : Result :=
  if P.outCap < N ∨ P.payCap < payload.length then .failed .allocationFailure
  else mapResult P N (runToEnd P (applyOps P (loadOps P B N payload) b))

/-- `decompress(Z)` on a block `b` with STATE ≠ RUN (R163): short header, sum check (C2), empty buffer
(C6), then build, load, run. -/
def decompress (P : Params) (b : Block P.cw) (Z : List Byte) : Result :=
  if Z.length < headerLen P then .failed .invalidHeader
  else if (headerTable P Z).sum ≠ headerCount P Z then .failed .invalidHeader
  else if headerCount P Z = 0 then .ok []
  else match build (headerTable P Z) with
    | none => .failed .invalidHeader
    | some B => decodeOnBlock P b B (headerCount P Z) (payloadPart P Z)

end Sys2Proof.Machine.Codec
end

