-- ==== Sys2Proof/WellFormed.lean ====
section
/-! DEFINITION. What is checked of the parameters and of an instruction before it is used. -/

namespace Sys2Proof

/-- The constraints of R4 on the OPEN parameters: `CW` a positive multiple of 8, each capacity
between 1 and `2^CW - 1`. -/
abbrev Params.wf (P : Params) : Prop :=
  0 < P.cw ∧ P.cw % 8 = 0 ∧
  1 ≤ P.payCap ∧ P.payCap ≤ 2 ^ P.cw - 1 ∧
  1 ≤ P.outCap ∧ P.outCap ≤ 2 ^ P.cw - 1

/-- `CW` is wide enough to carry a 9-bit handle over the register port. R4 allows `CW = 8`, where
ROOT and CUR (9 bits) do not fit a register word (assumption 12). -/
abbrev Params.carriesHandles (P : Params) : Prop := 9 ≤ P.cw

/-- Which encoded forms hold an instruction: every stream bit (R90), and a command word with bit 0
set (R83). A command word with bit 0 clear is no command. -/
def Encoded.wellFormed {cw : Nat} : Encoded cw → Bool
  | .streamBit _ => true
  | .command v => v.getLsbD 0

/-- No instruction has an operand that could be out of range (R81, R131): every one is well formed.
Match on all constructors, so that a new one cannot slip past. -/
def Instr.wellFormed : Instr → Bool
  | .dl => true
  | .dr => true
  | .start => true

end Sys2Proof
end

