-- ==== Sys2Proof/Safety.lean ====
section
/-! DEFINITION. What counts as a legal state of the block (R39), and the ways a run ends. -/

namespace Sys2Proof.Machine

/-- The invariant of R39 (a) to (c), with the canonical form and the bounds of the three memories
(R50, R59). -/
structure Legal (P : Params) (b : Block P.cw) : Prop where
  /-- R39 (a): `ERR ≠ NONE` exactly when STATE = ERROR. -/
  err_iff : b.err ≠ .none ↔ b.runState = .error
  /-- R39 (b): `EMITTED < SYMCOUNT` in RUN. -/
  emitted_lt : b.runState = .run → b.emitted.toNat < b.symcount.toNat
  /-- R39 (b): `SYMCOUNT ≤ OUT_CAP` in RUN. -/
  symcount_le : b.runState = .run → b.symcount.toNat ≤ P.outCap
  /-- R39 (b): `BYTEPOS ≤ PAYLEN` in RUN. -/
  bytepos_le : b.runState = .run → b.bytepos.toNat ≤ b.paylen.toNat
  /-- R39 (b): `PAYLEN ≤ PAY_CAP` in RUN. -/
  paylen_le : b.runState = .run → b.paylen.toNat ≤ P.payCap
  /-- R39 (b): `BYTEPOS = PAYLEN` implies `BITIDX = 0` in RUN. -/
  bitidx_zero : b.runState = .run → b.bytepos = b.paylen → b.bitidx = 0
  /-- R39 (c): CUR is ROOT or an internal entry in RUN. -/
  cur_ok : b.runState = .run → b.cur = b.root ∨ ∃ l r, nodeAt b b.cur = some (.internal l r)
  node_wf : Memory.wf b.node
  pay_wf : Memory.wf b.pay
  out_wf : Memory.wf b.out
  node_below : Memory.below b.node nodeSlots
  pay_below : Memory.below b.pay P.payCap
  out_below : Memory.below b.out P.outCap

/-- A run has ended (R231). -/
def Block.ended {cw : Nat} (b : Block cw) : Prop := b.runState = .done ∨ b.runState = .error

/-- A run has ended successfully (R202, R231): STATE = DONE, nothing else. -/
def Block.succeeded {cw : Nat} (b : Block cw) : Prop := b.runState = .done

/-- The block at its first stream bit after an accepted START of at least one symbol: the premises
(P1) and (P4) of R224. -/
abbrev Startable (P : Params) (b : Block P.cw) : Prop :=
  b.runState ≠ .run ∧ b.symcount ≠ 0 ∧ b.symcount.toNat ≤ P.outCap ∧ b.paylen.toNat ≤ P.payCap

/-- A safe machine: its block is legal. -/
def State.At.Legal {P : Params} (s : State.At P) : Prop := Machine.Legal P s.toBlock

/-- The next move is the engine's: its turn comes first, or no turn is pending (R142; assumption 4). -/
abbrev State.At.engineMoves {P : Params} (s : State.At P) : Prop :=
  s.turns.head? = some .engine ∨ s.turns = []

end Sys2Proof.Machine
end

