-- ==== Sys2Proof/Certificates/Slice0/Obligations.lean ====
section
/-! DEFINITION. The statements for the provers, from the numbered rules of spec/. -/

open Sys2Proof Sys2Proof.Machine Sys2Proof.Machine.Codec

/-! ### Encodings -/

/-- Words written out from 30_encoding.md: stream bits (R81), where they lie in a byte (R51), command
words (R83) and node words (R84; vectors V1, H13, H14). -/
def Obligations.EncodingsReadAsTheSpecWritesThem : Prop :=
  decode (cw := 32) (.streamBit false) = .instr .dl ∧
  decode (cw := 32) (.streamBit true) = .instr .dr ∧
  decodeStreamBit (streamBit 0x80#8 0) = .dr ∧
  decodeStreamBit (streamBit 0x7F#8 0) = .dl ∧
  decodeStreamBit (streamBit 0x01#8 7) = .dr ∧
  decodeStreamBit (streamBit 0xFE#8 7) = .dl ∧
  decode (.command 0x00000001#32) = .instr .start ∧
  decode (.command 0xFFFFFFFF#32) = .instr .start ∧
  decode (.command 0x00000000#32) = .rejected .noCommand ∧
  decode (.command 0xFFFFFFFE#32) = .rejected .noCommand ∧
  decodeNode 0x40041#19 = .leaf 0x41#8 ∧
  decodeNode 0x00A06#19 = .internal 5#9 6#9 ∧
  decodeNode 0x7FFFF#19 = .leaf 0xFF#8 ∧
  decodeNode 0x3FFFF#19 = .internal 511#9 511#9

/-- Every instruction is read back from its encoding at every width of the command word, and a form is an
instruction exactly when it is a stream bit or a command word with bit 0 set, whatever its reserved bits
(R81, R83, R90); format N loses no bit of an entry, and of a word exactly the reserved bits of a leaf
(R84, R85). -/
def Obligations.DecodeInvertsEncode : Prop :=
  (∀ (cw : Nat), 0 < cw → ∀ i : Instr, decode (encode cw i) = .instr i ∧ (encode cw i).wellFormed = true) ∧
  (∀ (cw : Nat) (e : Encoded cw), (∃ i, decode e = .instr i) ↔ e.wellFormed = true) ∧
  (∀ e : NodeEntry, decodeNode (encodeNode e) = e) ∧
  (∀ w : NodeWord, encodeNode (decodeNode w) = if w.getLsbD 18 then w &&& 0x400FF#19 else w)

/-- A bit string packed by the environment (R160) and held in PAY is read back bit for bit, in order,
followed by at most 7 pad bits that are 0: as stream bits (R51, R52, R82), and by the engine's fetch
(R111), which with the pc at bit `k` and its tests passed gives the instruction that bit `k` selects. -/
def Obligations.PackedStreamIsFetchedInOrder : Prop :=
  ∀ (P : Params) (b : Block P.cw) (bits : List Bool),
    (∀ i, i < (pack bits).length → (pack bits)[i]? = some (payAt b i)) →
    (pack bits).length = (bits.length + 7) / 8 ∧
    (∀ k, k < bits.length → bits[k]? = some (streamBitAt b k)) ∧
    (∀ k, bits.length ≤ k → k < 8 * (pack bits).length → streamBitAt b k = false) ∧
    (∀ k, 8 * b.bytepos.toNat + b.bitidx.toNat = k → b.bytepos.toNat < b.paylen.toNat →
      b.bytepos.toNat < P.payCap → nodeAt b b.cur ≠ none →
      (bits[k]? = some false → fetch P b = .instr .dl) ∧ (bits[k]? = some true → fetch P b = .instr .dr) ∧
      (bits.length ≤ k → k < 8 * (pack bits).length → fetch P b = .instr .dl))

/-- R85: what NodeWrite stores and makes valid, what NodeRead returns of an entry as a number, that
reserved bits read back as 0, and that nothing but RESET makes a valid entry invalid again. -/
def Obligations.NodeWordsOnTheHostPort : Prop :=
  (∀ (P : Params) (b : Block P.cw) (h : Handle) (draw : Nat), b.runState ≠ .run →
    (nodeAt b h = none → hostReply P (.nodeRead h) b draw = some (.node 0)) ∧
    (∀ s, nodeAt b h = some (.leaf s) →
      hostReply P (.nodeRead h) b draw = some (.node (BitVec.ofNat 20 (0x80000 + 0x40000 + s.toNat)))) ∧
    (∀ l r, nodeAt b h = some (.internal l r) →
      hostReply P (.nodeRead h) b draw =
        some (.node (BitVec.ofNat 20 (0x80000 + 512 * l.toNat + r.toNat))))) ∧
  (∀ (P : Params) (b : Block P.cw) (h : Handle) (w : NodeWord) (draw : Nat), b.runState ≠ .run →
    (w.getLsbD 18 = true →
      nodeAt (hostEffect P (.nodeWrite h w) b) h = some (.leaf (w.extractLsb' 0 8)) ∧
      hostReply P (.nodeRead h) (hostEffect P (.nodeWrite h w) b) draw =
        some (.node (BitVec.ofNat 20 (0x80000 + 0x40000 + w.toNat % 256)))) ∧
    (w.getLsbD 18 = false →
      nodeAt (hostEffect P (.nodeWrite h w) b) h =
        some (.internal (w.extractLsb' 9 9) (w.extractLsb' 0 9)) ∧
      hostReply P (.nodeRead h) (hostEffect P (.nodeWrite h w) b) draw =
        some (.node (BitVec.ofNat 20 (0x80000 + w.toNat)))) ∧
    (∀ k, k ≠ h → nodeAt (hostEffect P (.nodeWrite h w) b) k = nodeAt b k)) ∧
  (∀ (P : Params) (op : HostOp P.cw) (b : Block P.cw) (h : Handle), op ≠ .reset →
    nodeAt b h ≠ none → nodeAt (hostEffect P op b) h ≠ none) ∧
  (∀ (P : Params) (b : Block P.cw) (h : Handle), nodeAt (hostEffect P .reset b) h = none)

/-! ### Reset -/

/-- R40, R221: every register and every NODE entry after reset, and that the engine does not step. Of a
byte of PAY or OUT, which the spec leaves unspecified (U1), nothing is stated. -/
def Obligations.ResetLeavesTheTableOfR40 : Prop :=
  State.reset.runState = .idle ∧ State.reset.err = .none ∧ State.reset.root = 0 ∧
  State.reset.symcount = 0 ∧ State.reset.paylen = 0 ∧ State.reset.cur = 0 ∧
  State.reset.emitted = 0 ∧ State.reset.bytepos = 0 ∧ State.reset.bitidx = 0 ∧
  (∀ h, nodeAt State.reset.toBlock h = none) ∧ step State.reset = .next State.reset

/-- R140, R222: the host operation RESET, in any state, RUN included, gives every register its value of
R40 and makes every NODE entry invalid; PAY and OUT are drawn anew (assumption 2). -/
def Obligations.ResetOperationInAnyState : Prop :=
  ∀ (s : State) (rest : List (Turn Config.params.cw)), s.turns = .host .reset :: rest →
    ∃ t, step s = .next t ∧ t.runState = .idle ∧ t.err = .none ∧ t.root = 0 ∧ t.symcount = 0 ∧
      t.paylen = 0 ∧ t.cur = 0 ∧ t.emitted = 0 ∧ t.bytepos = 0 ∧ t.bitidx = 0 ∧
      (∀ h, nodeAt t.toBlock h = none) ∧
      (∀ i, payAt t.toBlock i = Config.payPowerUp (s.epoch + 1) i) ∧
      (∀ i, outAt t.toBlock i = Config.outPowerUp (s.epoch + 1) i) ∧
      t.turns = rest

/-! ### A step runs the decoded instruction -/

/-- R110, R111: when the engine moves in RUN, with a payload byte left and NODE[CUR] valid, the step is
`exec` of the instruction the bit `PAY[BYTEPOS][7 - BITIDX]` selects, in the state whose pending turn has
been taken; the instruction itself advances the pc. -/
def Obligations.StepRunsTheFetchedInstruction : Prop :=
  ∀ (s : State), s.engineMoves → s.runState = .run →
    s.bytepos.toNat < s.paylen.toNat → s.bytepos.toNat < Config.params.payCap →
    nodeAt s.toBlock s.cur ≠ none →
    step s = exec (if (payAt s.toBlock s.bytepos.toNat).getLsbD (7 - s.bitidx.toNat) then .dr else .dl)
      { s with turns := s.turns.tail }

/-- R89, R134: when the host's move is a write of a command word to register 0 with bit 0 set, the step is
`exec .start`; with bit 0 clear it changes nothing of the block (R132). -/
def Obligations.StepRunsTheCommandWord : Prop :=
  ∀ (s : State) (v : BitVec Config.params.cw) (rest : List (Turn Config.params.cw)),
    s.turns = .host (.regWrite 0 v) :: rest →
    (v.getLsbD 0 = true → step s = exec .start { s with turns := rest, reply := none }) ∧
    (v.getLsbD 0 = false → step s = .next { s with turns := rest, reply := none })

/-- R130, R142: every host operation completes in one step: its effect on the block, its returned value,
a fresh value drawn exactly when it reads a memory during RUN, the turn taken and nothing else. -/
def Obligations.HostOperationsComplete : Prop :=
  ∀ (s : State) (op : HostOp Config.params.cw) (rest : List (Turn Config.params.cw)),
    s.turns = .host op :: rest →
    let readsMemory := (∃ h, op = .nodeRead h) ∨ (∃ i, op = .payRead i) ∨ ∃ i, op = .outRead i
    ∃ t, step s = .next t ∧ t.toBlock = hostEffect Config.params op s.toBlock ∧ t.turns = rest ∧
      t.reply = hostReply Config.params op s.toBlock s.draws ∧
      (s.runState = .run ∧ readsMemory → t.draws = s.draws + 1) ∧
      (¬ (s.runState = .run ∧ readsMemory) → t.draws = s.draws)

/-! ### DL and DR -/

/-- R112, R113, R114, R117: in RUN, with a bit left, at an internal node whose child is internal, DL and
DR move CUR to the left and the right child, advance the pc by one bit, and change nothing else. -/
def Obligations.DescendToInternalChild : Prop :=
  ∀ (s : State) (l r l' r' : Handle), s.runState = .run → s.bytepos.toNat < s.paylen.toNat →
    nodeAt s.toBlock s.cur = some (.internal l r) →
    (nodeAt s.toBlock l = some (.internal l' r') →
      exec .dl s = .next { s with
        cur := l
        bytepos := if s.bitidx = 7 then s.bytepos + 1 else s.bytepos
        bitidx := if s.bitidx = 7 then 0 else s.bitidx + 1 }) ∧
    (nodeAt s.toBlock r = some (.internal l' r') →
      exec .dr s = .next { s with
        cur := r
        bytepos := if s.bitidx = 7 then s.bytepos + 1 else s.bytepos
        bitidx := if s.bitidx = 7 then 0 else s.bitidx + 1 })

/-- R112 to R117: in RUN, with a bit left, at an internal node whose child is a leaf, DL and DR write the
leaf's symbol to OUT[EMITTED], count it, return CUR to ROOT, advance the pc by one bit, and stop with DONE
exactly when the new count is SYMCOUNT. -/
def Obligations.DescendToLeafEmits : Prop :=
  ∀ (s : State) (l r : Handle) (sym : Byte), s.runState = .run → s.bytepos.toNat < s.paylen.toNat →
    s.emitted.toNat < Config.params.outCap → nodeAt s.toBlock s.cur = some (.internal l r) →
    let t : State := { s with
      out := Memory.write s.out s.emitted.toNat sym
      emitted := s.emitted + 1
      cur := s.root
      bytepos := if s.bitidx = 7 then s.bytepos + 1 else s.bytepos
      bitidx := if s.bitidx = 7 then 0 else s.bitidx + 1
      runState := if s.emitted + 1 = s.symcount then .done else .run }
    (nodeAt s.toBlock l = some (.leaf sym) → exec .dl s = .next t) ∧
    (nodeAt s.toBlock r = some (.leaf sym) → exec .dr s = .next t) ∧
    outAt t.toBlock s.emitted.toNat = sym ∧
    ∀ i, i ≠ s.emitted.toNat → outAt t.toBlock i = outAt s.toBlock i

/-- R115: at a leaf (a root-leaf tree) DL and DR do the same: one bit is consumed, whatever its value, the
leaf's own symbol is written to OUT[EMITTED] and counted, CUR is ROOT, and STATE is DONE exactly when the
count is SYMCOUNT and stays RUN otherwise. That a 1 bit is accepted here is a choice: R115 says 'accepting
it is this spec's choice' (D14, U5), and the model has no strict switch (assumption 16). -/
def Obligations.RootLeafConsumesOneBit : Prop :=
  ∀ (s : State) (sym : Byte), s.runState = .run → s.bytepos.toNat < s.paylen.toNat →
    s.emitted.toNat < Config.params.outCap → nodeAt s.toBlock s.cur = some (.leaf sym) →
    exec .dl s = exec .dr s ∧
    ∃ t, exec .dr s = .next t ∧ outAt t.toBlock s.emitted.toNat = sym ∧ t.emitted = s.emitted + 1 ∧
      t.cur = s.root ∧ (s.bitidx = 7 → t.bytepos = s.bytepos + 1 ∧ t.bitidx = 0) ∧
      (s.bitidx ≠ 7 → t.bytepos = s.bytepos ∧ t.bitidx = s.bitidx + 1) ∧
      (t.emitted = s.symcount → t.runState = .done) ∧ (t.emitted ≠ s.symcount → t.runState = .run)

/-- R118, R191, R192, R197, R198: in RUN, DL and DR raise TRUNC when the payload is exhausted, before
anything of NODE is looked at; else TREE when NODE[CUR] is invalid; else TREE when the child they select is
invalid; and an error changes STATE and ERR and nothing else. -/
def Obligations.WalkErrorsArePrecise : Prop :=
  ∀ (s : State), s.runState = .run →
    (s.paylen.toNat ≤ s.bytepos.toNat →
      exec .dl s = .next { s with runState := .error, err := .trunc } ∧
      exec .dr s = .next { s with runState := .error, err := .trunc }) ∧
    (s.bytepos.toNat < s.paylen.toNat →
      (nodeAt s.toBlock s.cur = none →
        exec .dl s = .next { s with runState := .error, err := .tree } ∧
        exec .dr s = .next { s with runState := .error, err := .tree }) ∧
      (∀ l r, nodeAt s.toBlock s.cur = some (.internal l r) →
        (nodeAt s.toBlock l = none → exec .dl s = .next { s with runState := .error, err := .tree }) ∧
        (nodeAt s.toBlock r = none → exec .dr s = .next { s with runState := .error, err := .tree })))

/-- R111, R197: the engine's own step, its turn pending or no turn pending, before any bit is read, raises
TRUNC with no byte left and TREE with NODE[CUR] invalid, TRUNC first, and changes nothing else of the block;
the turn is taken (assumption 4). -/
def Obligations.FetchErrorsStopTheRun : Prop :=
  ∀ (s : State), s.engineMoves → s.runState = .run →
    (s.paylen.toNat ≤ s.bytepos.toNat →
      step s = .next { s with runState := .error, err := .trunc, turns := s.turns.tail }) ∧
    (s.bytepos.toNat < s.paylen.toNat → nodeAt s.toBlock s.cur = none →
      step s = .next { s with runState := .error, err := .tree, turns := s.turns.tail })

/-- R110: outside RUN the engine does nothing: DL and DR change nothing, and the engine's step, its turn
pending or no turn pending, only takes the turn (assumptions 4, 5, 8). -/
def Obligations.EngineRestsOutsideRun : Prop :=
  ∀ (s : State), s.runState ≠ .run →
    exec .dl s = .next s ∧ exec .dr s = .next s ∧
    (s.engineMoves → step s = .next { s with turns := s.turns.tail })

/-- The frame of DL and DR (R112 to R118): whenever one of them answers a next state, the configuration
registers, NODE, PAY, the host's side and every byte of OUT but `OUT[EMITTED]` are as before; where the
node landed on is no leaf, all of OUT is. -/
def Obligations.WalkFrame : Prop :=
  ∀ (s t : State), (exec .dl s = .next t ∨ exec .dr s = .next t) →
    t.root = s.root ∧ t.symcount = s.symcount ∧ t.paylen = s.paylen ∧
    (∀ h, nodeAt t.toBlock h = nodeAt s.toBlock h) ∧
    (∀ i, payAt t.toBlock i = payAt s.toBlock i) ∧
    (∀ i, i ≠ s.emitted.toNat → outAt t.toBlock i = outAt s.toBlock i) ∧
    (t.emitted = s.emitted → ∀ i, outAt t.toBlock i = outAt s.toBlock i) ∧
    (t.err ≠ s.err → t.runState = .error) ∧
    t.epoch = s.epoch ∧ t.turns = s.turns ∧ t.reply = s.reply ∧ t.draws = s.draws

/-! ### START -/

/-- R131: every command word with bit 0 set is START; and START outside RUN, in each of its three
outcomes, ALLOC tested first; everything R131 does not name is as before, in particular ROOT, SYMCOUNT,
PAYLEN, NODE, PAY and OUT. -/
def Obligations.StartBeginsARun : Prop :=
  (∀ v : BitVec Config.params.cw, v.getLsbD 0 = true → decode (.command v) = .instr .start) ∧
  ∀ (s : State), s.runState ≠ .run →
    let s0 : State := { s with cur := s.root, emitted := 0, bytepos := 0, bitidx := 0 }
    (Config.params.outCap < s.symcount.toNat ∨ Config.params.payCap < s.paylen.toNat →
      exec .start s = .next { s0 with runState := .error, err := .alloc }) ∧
    (s.symcount.toNat ≤ Config.params.outCap → s.paylen.toNat ≤ Config.params.payCap →
      (s.symcount = 0 → exec .start s = .next { s0 with runState := .done, err := .none }) ∧
      (s.symcount ≠ 0 → exec .start s = .next { s0 with runState := .run, err := .none }))

/-- R132: START while STATE = RUN is dropped: it completes and changes nothing. -/
def Obligations.StartIsDroppedDuringRun : Prop :=
  ∀ (s : State), s.runState = .run → exec .start s = .next s

/-- The frame of START (R66, R131 (c)): whenever it answers a next state, ROOT, SYMCOUNT, PAYLEN, every
entry of NODE, every byte of PAY and OUT and the host's side are as before. -/
def Obligations.StartFrame : Prop :=
  ∀ (s t : State), exec .start s = .next t →
    t.root = s.root ∧ t.symcount = s.symcount ∧ t.paylen = s.paylen ∧
    (∀ h, nodeAt t.toBlock h = nodeAt s.toBlock h) ∧
    (∀ i, payAt t.toBlock i = payAt s.toBlock i) ∧
    (∀ i, outAt t.toBlock i = outAt s.toBlock i) ∧
    t.epoch = s.epoch ∧ t.turns = s.turns ∧ t.reply = s.reply ∧ t.draws = s.draws

/-- R110, R205, R221: nothing but a command word with bit 0 set makes a block that is not in RUN run, and
then only with a non-zero count and both counts within the capacities. -/
def Obligations.OnlyStartBeginsARun : Prop :=
  ∀ (P : Params) (b : Block P.cw), b.runState ≠ .run →
    engineStep P b = .next b ∧
    ∀ op : HostOp P.cw, (hostEffect P op b).runState = .run →
      (∃ v, op = .regWrite 0 v ∧ v.getLsbD 0 = true) ∧ b.symcount ≠ 0 ∧
      b.symcount.toNat ≤ P.outCap ∧ b.paylen.toNat ≤ P.payCap

/-! ### Registers and memories on the host port -/

/-- R133, R32, R33: the value RegRead returns, in any state, as a number, for a port of at least 9 bits. -/
def Obligations.RegReadValues : Prop :=
  ∀ (P : Params) (b : Block P.cw) (draw : Nat), 9 ≤ P.cw →
    ∃ v : Nat → BitVec P.cw, (∀ n, hostReply P (.regRead n) b draw = some (.word (v n))) ∧
      (∀ n, hostEffect P (.regRead n) b = b) ∧
      (v 0).toNat = 0 ∧
      (v 1).toNat = b.runState.code.toNat + 16 * b.err.code.toNat ∧
      (v 2).toNat = b.root.toNat ∧ (v 3).toNat = b.symcount.toNat ∧ (v 4).toNat = b.paylen.toNat ∧
      (v 5).toNat = b.cur.toNat ∧ (v 6).toNat = b.emitted.toNat ∧ (v 7).toNat = b.bytepos.toNat ∧
      (v 8).toNat = b.bitidx.toNat ∧ ∀ n, 9 ≤ n → (v n).toNat = 0

/-- R134: RegWrite is dropped in RUN. Outside RUN a write to register 2, 3 or 4 stores the word (ROOT its
low 9 bits, of a word of at least 9) and changes no other register and no memory, STATE least of all;
registers 1, 5 to 8 and 9 and above drop it; register 0 stores nothing: with bit 0 set it is the command
START, which may change STATE, and with bit 0 clear it changes nothing. -/
def Obligations.RegWriteStores : Prop :=
  ∀ (P : Params) (b : Block P.cw) (n : Nat) (v : BitVec P.cw),
    (b.runState = .run → hostEffect P (.regWrite n v) b = b) ∧
    (b.runState ≠ .run →
      (n = 2 → 9 ≤ P.cw →
        hostEffect P (.regWrite n v) b = { b with root := BitVec.ofNat 9 (v.toNat % 512) }) ∧
      (n = 3 → hostEffect P (.regWrite n v) b = { b with symcount := v }) ∧
      (n = 4 → hostEffect P (.regWrite n v) b = { b with paylen := v }) ∧
      (n = 1 ∨ 5 ≤ n → hostEffect P (.regWrite n v) b = b) ∧
      (n = 0 → v.getLsbD 0 = false → hostEffect P (.regWrite n v) b = b) ∧
      (n = 0 → v.getLsbD 0 = true → hostEffect P (.regWrite n v) b = startRun P b))

/-- R91: what a host reads of STATUS in a legal block, state by state and error by error: six values; and
each of the six is read of some legal block. -/
def Obligations.StatusHasSixValues : Prop :=
  (∀ (P : Params) (b : Block P.cw), 8 ≤ P.cw → Legal P b →
    (b.runState = .idle → (regRead b 1).toNat = 0x00) ∧
    (b.runState = .run → (regRead b 1).toNat = 0x01) ∧
    (b.runState = .done → (regRead b 1).toNat = 0x02) ∧
    (b.runState = .error →
      (b.err = .trunc → (regRead b 1).toNat = 0x13) ∧
      (b.err = .tree → (regRead b 1).toNat = 0x23) ∧
      (b.err = .alloc → (regRead b 1).toNat = 0x33)) ∧
    (regRead b 1).toNat ∈ [0x00, 0x01, 0x02, 0x13, 0x23, 0x33]) ∧
  (∀ x ∈ [0x00, 0x01, 0x02, 0x13, 0x23, 0x33],
    ∃ b : Block Config.params.cw, Legal Config.params b ∧ (regRead b 1).toNat = x)

/-- R137, and what PayRead then gives (R138): outside RUN and below PAY_CAP the byte written is read back
and every other index reads as before; in RUN or at PAY_CAP and above the write is dropped; nothing but
PAY changes, PAYLEN in particular; PayRead at PAY_CAP and above returns 0. -/
def Obligations.PayWriteThenPayRead : Prop :=
  ∀ (P : Params) (b : Block P.cw) (i : Nat) (B : Byte),
    (b.runState = .run ∨ P.payCap ≤ i → hostEffect P (.payWrite i B) b = b) ∧
    (b.runState ≠ .run → i < P.payCap → ∀ j draw,
      hostReply P (.payRead j) (hostEffect P (.payWrite i B) b) draw =
        if j = i then some (.byte B) else hostReply P (.payRead j) b draw) ∧
    (∃ m, hostEffect P (.payWrite i B) b = { b with pay := m }) ∧
    (hostEffect P (.payWrite i B) b).paylen = b.paylen ∧
    (b.runState ≠ .run → P.payCap ≤ i → ∀ draw, hostReply P (.payRead i) b draw = some (.byte 0))

/-- R139, R35, R36, U1: outside RUN, PayRead and OutRead of an index inside the space that nothing has
written return the free byte of that index and of the last reset, the same one every time (assumption 2;
the statement holds for every value of it), and OutRead at or above OUT_CAP returns 0. -/
def Obligations.UnwrittenBytesAreStable : Prop :=
  ∀ (P : Params) (b : Block P.cw) (i draw : Nat), b.runState ≠ .run →
    (i < P.payCap → Memory.read b.pay i = none →
      hostReply P (.payRead i) b draw = some (.byte (Config.payPowerUp b.epoch i))) ∧
    (i < P.outCap → Memory.read b.out i = none →
      hostReply P (.outRead i) b draw = some (.byte (Config.outPowerUp b.epoch i))) ∧
    (P.outCap ≤ i → hostReply P (.outRead i) b draw = some (.byte 0))

/-- R132, R62: while STATE = RUN every host operation but RESET, START among them, leaves the whole block
as it is, and so the engine's next step; RESET ends the run; and in any state a command word with bit 0
clear changes nothing. -/
def Obligations.HostCannotDisturbARun : Prop :=
  ∀ (P : Params) (b : Block P.cw),
    (b.runState = .run →
      (∀ op : HostOp P.cw, op ≠ .reset →
        hostEffect P op b = b ∧ engineStep P (hostEffect P op b) = engineStep P b) ∧
      (hostEffect P .reset b).runState = .idle) ∧
    (∀ v : BitVec P.cw, v.getLsbD 0 = false → hostEffect P (.regWrite 0 v) b = b)

/-- R62, U2: during RUN a NodeRead, PayRead or OutRead returns a free value, a fresh one per read, whatever
the index (assumption 3; the statement holds for every value of it); a RegRead returns the register. -/
def Obligations.MemoryReadsDuringRunAreFree : Prop :=
  ∀ (P : Params) (b : Block P.cw) (h : Handle) (i n draw : Nat), b.runState = .run →
    hostReply P (.nodeRead h) b draw = some (.node (Config.freeNodeWord draw)) ∧
    hostReply P (.payRead i) b draw = some (.byte (Config.freeByte draw)) ∧
    hostReply P (.outRead i) b draw = some (.byte (Config.freeByte draw)) ∧
    hostReply P (.regRead n) b draw = some (.word (regRead b n))

/-- R58: a read of any space, in any state, changes nothing of the block. -/
def Obligations.ReadsHaveNoSideEffect : Prop :=
  ∀ (s : State) (op : HostOp Config.params.cw) (rest : List (Turn Config.params.cw)),
    s.turns = .host op :: rest →
    ((∃ n, op = .regRead n) ∨ (∃ h, op = .nodeRead h) ∨ (∃ i, op = .payRead i) ∨ (∃ i, op = .outRead i)) →
    ∃ t, step s = .next t ∧ t.toBlock = s.toBlock

/-- The canonical form of memory means what it says, for the list of NODE and those of PAY and OUT alike:
two canonical memories that read alike at every address are equal, a write keeps the form, and a read after
a write gives what was written there and what was there before elsewhere (R34, R35, R36, R58; the
representation is the model's, assumption 20). -/
def Obligations.CanonicalMemoriesAreEqualWhenTheyReadAlike : Prop :=
  ∀ (α : Type) (m n : List (Nat × α)) (a : Nat) (v : α), Memory.wf m → Memory.wf n →
    ((∀ i, Memory.read m i = Memory.read n i) → m = n) ∧
    Memory.wf (Memory.write m a v) ∧
    (∀ i, Memory.read (Memory.write m a v) i = if i = a then some v else Memory.read m i)

/-! ### Invariants -/

/-- R39, R59: the invariant holds at reset. -/
def Obligations.ResetIsLegal : Prop := State.reset.Legal

/-- R39, R119: from every legal state, whatever the host does next, a step answers a next state and that
state is legal; so no step from a legal state stops. -/
def Obligations.EveryStepKeepsLegality : Prop :=
  ∀ (s : State), s.Legal → ∃ t, step s = .next t ∧ t.Legal

/-- R39, R119, R59 at every value of the parameters (R4): from every legal state, whatever the host does
next, a step of the machine answers a next state that is legal; and so for each step of the engine and each
host operation on a block, so the engine never leaves its index ranges. -/
def Obligations.LegalityAtEveryParameter : Prop :=
  ∀ (P : Params), P.wf →
    (∀ s : State.At P, s.Legal → ∃ t, stepAt s = .next t ∧ t.Legal) ∧
    ∀ (b : Block P.cw), Legal P b →
      (∃ b', engineStep P b = .next b' ∧ Legal P b') ∧ ∀ op : HostOp P.cw, Legal P (hostEffect P op b)

/-- R117: from a legal block in RUN, a step of the engine that ends without error advances the pc by the
rule of `advance_pc`, BITPOS by exactly 1, whether or not it emits, and BYTEPOS stays within PAYLEN and
does not wrap; a step that ends with an error leaves the pc alone (R30). -/
def Obligations.PcAdvancesByOneBit : Prop :=
  ∀ (P : Params) (b b' : Block P.cw), Legal P b → b.runState = .run → engineStep P b = .next b' →
    (b'.runState ≠ .error →
      (b.bitidx = 7 → b'.bitidx = 0 ∧ b'.bytepos.toNat = b.bytepos.toNat + 1) ∧
      (b.bitidx ≠ 7 → b'.bitidx.toNat = b.bitidx.toNat + 1 ∧ b'.bytepos = b.bytepos) ∧
      8 * b'.bytepos.toNat + b'.bitidx.toNat = 8 * b.bytepos.toNat + b.bitidx.toNat + 1 ∧
      b'.bytepos.toNat ≤ b'.paylen.toNat) ∧
    (b'.runState = .error → b'.bytepos = b.bytepos ∧ b'.bitidx = b.bitidx)

/-- R116, R119, R39 (d), U10: from a legal block in RUN, a step of the engine adds at most 1 to EMITTED; it
ends with DONE exactly when the new count is SYMCOUNT, and then CUR is ROOT; while it stays in RUN the
count is below SYMCOUNT. -/
def Obligations.DoneExactlyAtSymcount : Prop :=
  ∀ (P : Params) (b b' : Block P.cw), Legal P b → b.runState = .run → engineStep P b = .next b' →
    (b'.emitted.toNat = b.emitted.toNat ∨ b'.emitted.toNat = b.emitted.toNat + 1) ∧
    (b'.runState = .done ↔ b'.emitted = b'.symcount) ∧
    (b'.runState = .done → b'.cur = b'.root) ∧
    (b'.runState = .run → b'.emitted.toNat < b'.symcount.toNat)

/-! ### Runs -/

/-- R120: whatever NODE holds, a run ends after at most `8 · PAYLEN + 1` steps (none where START itself
ends it); a step that does not end it advances BITPOS by 1, and a step with no byte left raises TRUNC. -/
def Obligations.EveryRunEnds : Prop :=
  ∀ (P : Params) (b : Block P.cw), b.runState ≠ .run →
    (∃ k b', k ≤ 8 * b.paylen.toNat + 1 ∧ runEngine P k (startRun P b) = .next b' ∧ b'.ended) ∧
    (∀ k c c', runEngine P k (startRun P b) = .next c → c.runState = .run → engineStep P c = .next c' →
      (c'.runState = .run → bitpos c' = bitpos c + 1) ∧
      (bitpos c = 8 * b.paylen.toNat → c'.runState = .error ∧ c'.err = .trunc))

/-- R121: if NODE, reachable from ROOT, is the tree `T`, the run of a START with SYMCOUNT ≥ 1 and counts
within the capacities ends with DONE and `OUT[0 .. SYMCOUNT - 1] = dec(T, bits, SYMCOUNT)` where that is a
sequence, and with TRUNC where it is Truncated; and `dec` of codewords of `xs` followed by anything is
`xs`. -/
def Obligations.RunDecodesTheTree : Prop :=
  (∀ (P : Params) (b : Block P.cw) (T : Tree), Startable P b → treeAt b b.root T →
    ∃ b', runEngine P (8 * b.paylen.toNat + 1) (startRun P b) = .next b' ∧
      (∀ xs, dec T b.symcount.toNat (streamBits b) = some xs →
        b'.runState = .done ∧ outBytes b' b.symcount.toNat = xs) ∧
      (dec T b.symcount.toNat (streamBits b) = none → b'.runState = .error ∧ b'.err = .trunc)) ∧
  (∀ (T : Tree) (ws : List (List Bool × Byte)) (rest : List Bool),
    (∀ w ∈ ws, IsCodeword T w.1 w.2) →
    dec T ws.length ((ws.map Prod.fst).flatten ++ rest) = some (ws.map Prod.snd))

/-- R116, R229, R231, R232: if NODE, reachable from ROOT, is the tree `T` and the stream bits are SYMCOUNT
codewords followed by anything, the run takes one step per bit of the codewords, `L` in all: before that
it is in RUN at bit `k` after `k` steps; then it is DONE with EMITTED = SYMCOUNT, CUR = ROOT, the decoded
symbols in OUT and the pc at the first bit not consumed. -/
def Obligations.SuccessfulRunTakesOneStepPerBit : Prop :=
  ∀ (P : Params) (b : Block P.cw) (T : Tree) (ws : List (List Bool × Byte)) (rest : List Bool),
    Startable P b → treeAt b b.root T → (∀ w ∈ ws, IsCodeword T w.1 w.2) →
    ws.length = b.symcount.toNat → streamBits b = (ws.map Prod.fst).flatten ++ rest →
    (∀ k, k < (ws.map Prod.fst).flatten.length →
      ∃ c, runEngine P k (startRun P b) = .next c ∧ c.runState = .run ∧ bitpos c = k) ∧
    ∃ c, runEngine P (ws.map Prod.fst).flatten.length (startRun P b) = .next c ∧ c.runState = .done ∧
      bitpos c = (ws.map Prod.fst).flatten.length ∧ c.emitted = c.symcount ∧ c.cur = c.root ∧
      outBytes c ws.length = ws.map Prod.snd

/-- R131 (b), R200, R203, U1: a run is a function of ROOT, SYMCOUNT, PAYLEN, NODE and the payload's bytes
at START alone: two blocks that agree on these, whatever STATE, ERR, the run registers, OUT and the rest
of PAY hold, go through runs that agree step by step, OUT up to EMITTED included. -/
def Obligations.RunDependsOnItsInputsOnly : Prop :=
  ∀ (P : Params) (b d : Block P.cw), Startable P b → d.runState ≠ .run → d.root = b.root →
    d.symcount = b.symcount → d.paylen = b.paylen → (∀ h, nodeAt d h = nodeAt b h) →
    (∀ i, i < b.paylen.toNat → payAt d i = payAt b i) →
    ∀ k, ∃ c e, runEngine P k (startRun P b) = .next c ∧ runEngine P k (startRun P d) = .next e ∧
      e.runState = c.runState ∧ e.err = c.err ∧ e.cur = c.cur ∧ e.emitted = c.emitted ∧
      e.bytepos = c.bytepos ∧ e.bitidx = c.bitidx ∧
      outBytes e c.emitted.toNat = outBytes c c.emitted.toNat

/-- R142: the order in which the host's operations fall between the engine's steps does not matter to a
run, at any parameters. With no RESET among the moves `pre` of a run, and the run still going after as many
engine steps as `pre` holds, the block is then the one those engine steps alone reach; and where the next
move is the engine's, the block after it, the run's final state if that step ends the run, is what the
engine steps alone reach too. -/
def Obligations.InterleavingDoesNotMatter : Prop :=
  ∀ (P : Params) (s : State.At P) (pre rest : List (Turn P.cw)) (c : Block P.cw),
    s.turns = pre ++ rest → .host .reset ∉ pre → s.runState = .run →
    runEngine P (pre.count .engine) s.toBlock = .next c → c.runState = .run →
    (∃ t : State.At P, (coreAt P).run pre.length s = .next t ∧ t.toBlock = c ∧ t.turns = rest) ∧
    (∀ b, rest = [] ∨ rest.head? = some .engine → runEngine P (pre.count .engine + 1) s.toBlock = .next b →
      ∃ t : State.At P, (coreAt P).run (pre.length + 1) s = .next t ∧ t.toBlock = b ∧ t.turns = rest.tail)

/-! ### The environment's codec and the block -/

/-- R170: for an input with `n ≥ 1` distinct byte values the arena has exactly `2n - 1` entries, `n` of
them leaves, so `n - 1` internal nodes, and the root is the last of them (R156); the empty input builds no
tree; the frequency table has 256 entries whose sum is the length (R152). -/
def Obligations.TreeSize : Prop :=
  ∀ X : List Byte,
    (freq X).length = 256 ∧ (freq X).sum = X.length ∧
    (X = [] → build (freq X) = none) ∧
    (X ≠ [] → ∃ B, build (freq X) = some B ∧
      B.arena.length = 2 * X.dedup.length - 1 ∧ B.root = 2 * X.dedup.length - 2 ∧
      (B.arena.filter fun n => match n.kind with | .leaf _ => true | .internal _ _ => false).length =
        X.dedup.length)

/-- R168: no entry of the generated code table has a bit sequence that is a prefix of another's. -/
def Obligations.CodesArePrefixFree : Prop :=
  ∀ (X : List Byte) (B : Built), build (freq X) = some B →
    (codes B).Pairwise fun p q => ¬ p.2 <+: q.2 ∧ ¬ q.2 <+: p.2

/-- R95: a code is at least 1 bit and at most `n - 1` bits long for `n` distinct byte values (1 bit for
`n = 1`), at most 255 bits, so the encoded bits number between the symbol count and 255 times it. -/
def Obligations.CodeLengthsAreBounded : Prop :=
  ∀ (X : List Byte) (B : Built), build (freq X) = some B →
    (∀ p ∈ codes B, 1 ≤ p.2.length ∧ p.2.length ≤ max 1 (X.dedup.length - 1) ∧ p.2.length ≤ 255) ∧
    X.length ≤ (encodeBits (codes B) X).length ∧ (encodeBits (codes B) X).length ≤ 255 * X.length

/-- R164, R163: a buffer too short for 257 integers, or whose frequencies do not sum to its symbol count,
is an InvalidHeader whatever follows, and no block is used; a valid header with count 0 gives the empty
buffer. -/
def Obligations.HeaderChecks : Prop :=
  ∀ (P : Params) (b : Block P.cw) (Z : List Byte),
    (Z.length < 257 * (P.cw / 8) → decompress P b Z = .failed .invalidHeader) ∧
    ((headerTable P Z).sum ≠ headerCount P Z → decompress P b Z = .failed .invalidHeader) ∧
    (257 * (P.cw / 8) ≤ Z.length → headerCount P Z = 0 → (headerTable P Z).sum = 0 →
      decompress P b Z = .ok [])

/-- R167: decompressing a compressed buffer on any block that is not running gives the input back, when the
count fits a header integer and OUT, and the payload fits PAY. The register port must carry a 9-bit handle
(assumption 12). -/
def Obligations.RoundTrip : Prop :=
  ∀ (P : Params) (b : Block P.cw) (X : List Byte), P.wf → P.carriesHandles → b.runState ≠ .run →
    X.length ≤ 2 ^ P.cw - 1 → X.length ≤ P.outCap → (payloadOf X).length ≤ P.payCap →
    ∃ Z, compress P X = .ok Z ∧ decompress P b Z = .ok X

/-- R171: a compressed buffer of a non-empty input, truncated by its last byte, decompresses to
TruncatedPayload. -/
def Obligations.TruncationIsDetected : Prop :=
  ∀ (P : Params) (b : Block P.cw) (X Z : List Byte), P.wf → P.carriesHandles → b.runState ≠ .run →
    X ≠ [] → X.length ≤ P.outCap → (payloadOf X).length ≤ P.payCap → compress P X = .ok Z →
    decompress P b Z.dropLast = .failed .truncatedPayload

/-- R172, R206 (a): bytes after a compressed buffer are not detected: decompressing it with anything
appended, as long as the payload still fits PAY, gives the input back all the same. -/
def Obligations.TrailingPayloadIsIgnored : Prop :=
  ∀ (P : Params) (b : Block P.cw) (X Z extra : List Byte), P.wf → P.carriesHandles →
    b.runState ≠ .run → X.length ≤ P.outCap → (payloadOf X).length + extra.length ≤ P.payCap →
    compress P X = .ok Z → decompress P b (Z ++ extra) = .ok X

/-! ### Reading the result, the narrow port, and the machine at every parameter -/

/-- R139, R58: outside RUN, OutRead below OUT_CAP returns OUT[i] and at OUT_CAP and above 0, and in any state
it changes nothing; so a byte written to OUT is the byte returned, and after a run over the tree `T` that
decodes (R121), OutRead returns the decoded symbols below SYMCOUNT. -/
def Obligations.OutReadReturnsOut : Prop :=
  ∀ (P : Params) (b : Block P.cw) (i draw : Nat),
    hostEffect P (.outRead i) b = b ∧
    (b.runState ≠ .run → i < P.outCap → hostReply P (.outRead i) b draw = some (.byte (outAt b i))) ∧
    (b.runState ≠ .run → P.outCap ≤ i → hostReply P (.outRead i) b draw = some (.byte 0)) ∧
    (∀ m v, b.runState ≠ .run → b.out = Memory.write m i v → i < P.outCap →
      hostReply P (.outRead i) b draw = some (.byte v)) ∧
    (∀ T xs, Startable P b → treeAt b b.root T → dec T b.symcount.toNat (streamBits b) = some xs →
      i < b.symcount.toNat →
      ∃ c, runEngine P (8 * b.paylen.toNat + 1) (startRun P b) = .next c ∧ c.runState = .done ∧
        ∃ x, xs[i]? = some x ∧ hostReply P (.outRead i) c draw = some (.byte x))

/-- The model's choice for a register port narrower than a handle (assumption 12), and R33 for a port that
is not: RegRead of ROOT, CUR and BITIDX gives the value modulo `2^CW`, and RegWrite of ROOT outside RUN
stores the word modulo 512. -/
def Obligations.HandlesOnThePortAtEveryWidth : Prop :=
  ∀ (P : Params) (b : Block P.cw) (v : BitVec P.cw),
    (regRead b 2).toNat = b.root.toNat % 2 ^ P.cw ∧ (regRead b 5).toNat = b.cur.toNat % 2 ^ P.cw ∧
    (regRead b 8).toNat = b.bitidx.toNat % 2 ^ P.cw ∧
    (b.runState ≠ .run → (hostEffect P (.regWrite 2 v) b).root.toNat = v.toNat % 512)

/-- R4: the machine of the fixed names is the machine at the default parameters: its dispatch, its step and
its core (assumption 1). -/
def Obligations.TheMachineIsTheOneAtTheDefaults : Prop :=
  (∀ i s, exec i s = execAt i s) ∧ (∀ s, step s = stepAt s) ∧ core = coreAt Config.params

/-- R4, R110, R142: at every value of the parameters, one move of the machine is one step of its block: the
engine's move is the engine's step, with its turn taken and the host's side unchanged, and it stops where
that step stops; the host's move is its operation's effect with its reply (assumptions 3, 4, 6). And the
three instructions act on the block alone: DL and DR as the walk in their direction, START as START. -/
def Obligations.MachineMovesAsItsBlockAtEveryParameter : Prop :=
  ∀ (P : Params) (s : State.At P),
    (s.engineMoves →
      (∀ b, engineStep P s.toBlock = .next b →
        stepAt s = .next { s with toBlock := b, turns := s.turns.tail }) ∧
      (∀ f, engineStep P s.toBlock = .fault f → stepAt s = .fault f)) ∧
    (∀ op rest, s.turns = .host op :: rest →
      stepAt s = .next { s with
        toBlock := hostEffect P op s.toBlock
        turns := rest
        reply := hostReply P op s.toBlock s.draws
        draws := if hostDraws op s.toBlock then s.draws + 1 else s.draws }) ∧
    (∀ b, descend P .left s.toBlock = .next b → execAt .dl s = .next { s with toBlock := b }) ∧
    (∀ b, descend P .right s.toBlock = .next b → execAt .dr s = .next { s with toBlock := b }) ∧
    execAt .start s = .next { s with toBlock := startRun P s.toBlock }
end

