-- ==== Sys2Proof/Laws/State.lean ====
section
/-! SUPPORT. One lemma per field per update of the state, true by rfl, so that no proof unfolds a record
update. -/

namespace Sys2Proof.Machine

variable {cw : Nat}

/-! ### `raiseError`: writes STATE and ERR (R198) -/

@[simp] theorem raiseError_runState (e : ErrCode) (b : Block cw) : (raiseError e b).runState = .error := rfl
@[simp] theorem raiseError_err (e : ErrCode) (b : Block cw) : (raiseError e b).err = e := rfl
@[simp] theorem raiseError_root (e : ErrCode) (b : Block cw) : (raiseError e b).root = b.root := rfl
@[simp] theorem raiseError_symcount (e : ErrCode) (b : Block cw) : (raiseError e b).symcount = b.symcount := rfl
@[simp] theorem raiseError_paylen (e : ErrCode) (b : Block cw) : (raiseError e b).paylen = b.paylen := rfl
@[simp] theorem raiseError_cur (e : ErrCode) (b : Block cw) : (raiseError e b).cur = b.cur := rfl
@[simp] theorem raiseError_emitted (e : ErrCode) (b : Block cw) : (raiseError e b).emitted = b.emitted := rfl
@[simp] theorem raiseError_bytepos (e : ErrCode) (b : Block cw) : (raiseError e b).bytepos = b.bytepos := rfl
@[simp] theorem raiseError_bitidx (e : ErrCode) (b : Block cw) : (raiseError e b).bitidx = b.bitidx := rfl
@[simp] theorem raiseError_node (e : ErrCode) (b : Block cw) : (raiseError e b).node = b.node := rfl
@[simp] theorem raiseError_pay (e : ErrCode) (b : Block cw) : (raiseError e b).pay = b.pay := rfl
@[simp] theorem raiseError_out (e : ErrCode) (b : Block cw) : (raiseError e b).out = b.out := rfl
@[simp] theorem raiseError_epoch (e : ErrCode) (b : Block cw) : (raiseError e b).epoch = b.epoch := rfl

/-! ### `clearRun`: writes ERR and the run registers (R131) -/

@[simp] theorem clearRun_runState (b : Block cw) : (clearRun b).runState = b.runState := rfl
@[simp] theorem clearRun_err (b : Block cw) : (clearRun b).err = .none := rfl
@[simp] theorem clearRun_root (b : Block cw) : (clearRun b).root = b.root := rfl
@[simp] theorem clearRun_symcount (b : Block cw) : (clearRun b).symcount = b.symcount := rfl
@[simp] theorem clearRun_paylen (b : Block cw) : (clearRun b).paylen = b.paylen := rfl
@[simp] theorem clearRun_cur (b : Block cw) : (clearRun b).cur = b.root := rfl
@[simp] theorem clearRun_emitted (b : Block cw) : (clearRun b).emitted = 0 := rfl
@[simp] theorem clearRun_bytepos (b : Block cw) : (clearRun b).bytepos = 0 := rfl
@[simp] theorem clearRun_bitidx (b : Block cw) : (clearRun b).bitidx = 0 := rfl
@[simp] theorem clearRun_node (b : Block cw) : (clearRun b).node = b.node := rfl
@[simp] theorem clearRun_pay (b : Block cw) : (clearRun b).pay = b.pay := rfl
@[simp] theorem clearRun_out (b : Block cw) : (clearRun b).out = b.out := rfl
@[simp] theorem clearRun_epoch (b : Block cw) : (clearRun b).epoch = b.epoch := rfl

/-! ### `writeNode`: writes NODE (R135) -/

@[simp] theorem writeNode_runState (b : Block cw) (h : Handle) (e : NodeEntry) : (writeNode b h e).runState = b.runState := rfl
@[simp] theorem writeNode_err (b : Block cw) (h : Handle) (e : NodeEntry) : (writeNode b h e).err = b.err := rfl
@[simp] theorem writeNode_root (b : Block cw) (h : Handle) (e : NodeEntry) : (writeNode b h e).root = b.root := rfl
@[simp] theorem writeNode_symcount (b : Block cw) (h : Handle) (e : NodeEntry) : (writeNode b h e).symcount = b.symcount := rfl
@[simp] theorem writeNode_paylen (b : Block cw) (h : Handle) (e : NodeEntry) : (writeNode b h e).paylen = b.paylen := rfl
@[simp] theorem writeNode_cur (b : Block cw) (h : Handle) (e : NodeEntry) : (writeNode b h e).cur = b.cur := rfl
@[simp] theorem writeNode_emitted (b : Block cw) (h : Handle) (e : NodeEntry) : (writeNode b h e).emitted = b.emitted := rfl
@[simp] theorem writeNode_bytepos (b : Block cw) (h : Handle) (e : NodeEntry) : (writeNode b h e).bytepos = b.bytepos := rfl
@[simp] theorem writeNode_bitidx (b : Block cw) (h : Handle) (e : NodeEntry) : (writeNode b h e).bitidx = b.bitidx := rfl
@[simp] theorem writeNode_node (b : Block cw) (h : Handle) (e : NodeEntry) : (writeNode b h e).node = Memory.write b.node h.toNat e := rfl
@[simp] theorem writeNode_pay (b : Block cw) (h : Handle) (e : NodeEntry) : (writeNode b h e).pay = b.pay := rfl
@[simp] theorem writeNode_out (b : Block cw) (h : Handle) (e : NodeEntry) : (writeNode b h e).out = b.out := rfl
@[simp] theorem writeNode_epoch (b : Block cw) (h : Handle) (e : NodeEntry) : (writeNode b h e).epoch = b.epoch := rfl

/-! ### `writePay`: writes PAY (R137) -/

@[simp] theorem writePay_runState (b : Block cw) (i : Nat) (B : Byte) : (writePay b i B).runState = b.runState := rfl
@[simp] theorem writePay_err (b : Block cw) (i : Nat) (B : Byte) : (writePay b i B).err = b.err := rfl
@[simp] theorem writePay_root (b : Block cw) (i : Nat) (B : Byte) : (writePay b i B).root = b.root := rfl
@[simp] theorem writePay_symcount (b : Block cw) (i : Nat) (B : Byte) : (writePay b i B).symcount = b.symcount := rfl
@[simp] theorem writePay_paylen (b : Block cw) (i : Nat) (B : Byte) : (writePay b i B).paylen = b.paylen := rfl
@[simp] theorem writePay_cur (b : Block cw) (i : Nat) (B : Byte) : (writePay b i B).cur = b.cur := rfl
@[simp] theorem writePay_emitted (b : Block cw) (i : Nat) (B : Byte) : (writePay b i B).emitted = b.emitted := rfl
@[simp] theorem writePay_bytepos (b : Block cw) (i : Nat) (B : Byte) : (writePay b i B).bytepos = b.bytepos := rfl
@[simp] theorem writePay_bitidx (b : Block cw) (i : Nat) (B : Byte) : (writePay b i B).bitidx = b.bitidx := rfl
@[simp] theorem writePay_node (b : Block cw) (i : Nat) (B : Byte) : (writePay b i B).node = b.node := rfl
@[simp] theorem writePay_pay (b : Block cw) (i : Nat) (B : Byte) : (writePay b i B).pay = Memory.write b.pay i B := rfl
@[simp] theorem writePay_out (b : Block cw) (i : Nat) (B : Byte) : (writePay b i B).out = b.out := rfl
@[simp] theorem writePay_epoch (b : Block cw) (i : Nat) (B : Byte) : (writePay b i B).epoch = b.epoch := rfl

/-! ### `writeOut`: writes OUT (R114) -/

@[simp] theorem writeOut_runState (b : Block cw) (i : Nat) (v : Byte) : (writeOut b i v).runState = b.runState := rfl
@[simp] theorem writeOut_err (b : Block cw) (i : Nat) (v : Byte) : (writeOut b i v).err = b.err := rfl
@[simp] theorem writeOut_root (b : Block cw) (i : Nat) (v : Byte) : (writeOut b i v).root = b.root := rfl
@[simp] theorem writeOut_symcount (b : Block cw) (i : Nat) (v : Byte) : (writeOut b i v).symcount = b.symcount := rfl
@[simp] theorem writeOut_paylen (b : Block cw) (i : Nat) (v : Byte) : (writeOut b i v).paylen = b.paylen := rfl
@[simp] theorem writeOut_cur (b : Block cw) (i : Nat) (v : Byte) : (writeOut b i v).cur = b.cur := rfl
@[simp] theorem writeOut_emitted (b : Block cw) (i : Nat) (v : Byte) : (writeOut b i v).emitted = b.emitted := rfl
@[simp] theorem writeOut_bytepos (b : Block cw) (i : Nat) (v : Byte) : (writeOut b i v).bytepos = b.bytepos := rfl
@[simp] theorem writeOut_bitidx (b : Block cw) (i : Nat) (v : Byte) : (writeOut b i v).bitidx = b.bitidx := rfl
@[simp] theorem writeOut_node (b : Block cw) (i : Nat) (v : Byte) : (writeOut b i v).node = b.node := rfl
@[simp] theorem writeOut_pay (b : Block cw) (i : Nat) (v : Byte) : (writeOut b i v).pay = b.pay := rfl
@[simp] theorem writeOut_out (b : Block cw) (i : Nat) (v : Byte) : (writeOut b i v).out = Memory.write b.out i v := rfl
@[simp] theorem writeOut_epoch (b : Block cw) (i : Nat) (v : Byte) : (writeOut b i v).epoch = b.epoch := rfl

/-! ### `advancePc`: writes BYTEPOS and BITIDX (R117) -/

@[simp] theorem advancePc_runState (b : Block cw) : (advancePc b).runState = b.runState := by
  unfold advancePc; split <;> rfl
@[simp] theorem advancePc_err (b : Block cw) : (advancePc b).err = b.err := by
  unfold advancePc; split <;> rfl
@[simp] theorem advancePc_root (b : Block cw) : (advancePc b).root = b.root := by
  unfold advancePc; split <;> rfl
@[simp] theorem advancePc_symcount (b : Block cw) : (advancePc b).symcount = b.symcount := by
  unfold advancePc; split <;> rfl
@[simp] theorem advancePc_paylen (b : Block cw) : (advancePc b).paylen = b.paylen := by
  unfold advancePc; split <;> rfl
@[simp] theorem advancePc_cur (b : Block cw) : (advancePc b).cur = b.cur := by
  unfold advancePc; split <;> rfl
@[simp] theorem advancePc_emitted (b : Block cw) : (advancePc b).emitted = b.emitted := by
  unfold advancePc; split <;> rfl
@[simp] theorem advancePc_node (b : Block cw) : (advancePc b).node = b.node := by
  unfold advancePc; split <;> rfl
@[simp] theorem advancePc_pay (b : Block cw) : (advancePc b).pay = b.pay := by
  unfold advancePc; split <;> rfl
@[simp] theorem advancePc_out (b : Block cw) : (advancePc b).out = b.out := by
  unfold advancePc; split <;> rfl
@[simp] theorem advancePc_epoch (b : Block cw) : (advancePc b).epoch = b.epoch := by
  unfold advancePc; split <;> rfl

theorem advancePc_bytepos (b : Block cw) :
    (advancePc b).bytepos = if b.bitidx = 7 then b.bytepos + 1 else b.bytepos := by
  unfold advancePc; split <;> rfl

theorem advancePc_bitidx (b : Block cw) :
    (advancePc b).bitidx = if b.bitidx = 7 then 0 else b.bitidx + 1 := by
  unfold advancePc; split <;> rfl

/-! ### `Block.reset` (R40) -/

@[simp] theorem Block.reset_runState (cw e : Nat) : (Block.reset cw e).runState = .idle := rfl
@[simp] theorem Block.reset_err (cw e : Nat) : (Block.reset cw e).err = .none := rfl
@[simp] theorem Block.reset_root (cw e : Nat) : (Block.reset cw e).root = 0 := rfl
@[simp] theorem Block.reset_symcount (cw e : Nat) : (Block.reset cw e).symcount = 0 := rfl
@[simp] theorem Block.reset_paylen (cw e : Nat) : (Block.reset cw e).paylen = 0 := rfl
@[simp] theorem Block.reset_cur (cw e : Nat) : (Block.reset cw e).cur = 0 := rfl
@[simp] theorem Block.reset_emitted (cw e : Nat) : (Block.reset cw e).emitted = 0 := rfl
@[simp] theorem Block.reset_bytepos (cw e : Nat) : (Block.reset cw e).bytepos = 0 := rfl
@[simp] theorem Block.reset_bitidx (cw e : Nat) : (Block.reset cw e).bitidx = 0 := rfl
@[simp] theorem Block.reset_node (cw e : Nat) : (Block.reset cw e).node = [] := rfl
@[simp] theorem Block.reset_pay (cw e : Nat) : (Block.reset cw e).pay = [] := rfl
@[simp] theorem Block.reset_out (cw e : Nat) : (Block.reset cw e).out = [] := rfl
@[simp] theorem Block.reset_epoch (cw e : Nat) : (Block.reset cw e).epoch = e := rfl

/-! ### `State.At.withBlock`: another block, the host's side unchanged -/

variable {P : Params}

@[simp] theorem State.At.withBlock_toBlock (s : State.At P) (b : Block P.cw) :
    (s.withBlock b).toBlock = b := rfl
@[simp] theorem State.At.withBlock_turns (s : State.At P) (b : Block P.cw) :
    (s.withBlock b).turns = s.turns := rfl
@[simp] theorem State.At.withBlock_reply (s : State.At P) (b : Block P.cw) :
    (s.withBlock b).reply = s.reply := rfl
@[simp] theorem State.At.withBlock_draws (s : State.At P) (b : Block P.cw) :
    (s.withBlock b).draws = s.draws := rfl
@[simp] theorem State.At.withBlock_self (s : State.At P) : s.withBlock s.toBlock = s := rfl
@[simp] theorem State.At.withBlock_withBlock (s : State.At P) (b c : Block P.cw) :
    (s.withBlock b).withBlock c = s.withBlock c := rfl

/-! ### `recordReply`: the host's side, the block unchanged -/

@[simp] theorem recordReply_toBlock (op : HostOp P.cw) (s : State.At P) :
    (recordReply op s).toBlock = s.toBlock := rfl
@[simp] theorem recordReply_turns (op : HostOp P.cw) (s : State.At P) :
    (recordReply op s).turns = s.turns := rfl
@[simp] theorem recordReply_reply (op : HostOp P.cw) (s : State.At P) :
    (recordReply op s).reply = hostReply P op s.toBlock s.draws := rfl
@[simp] theorem recordReply_draws (op : HostOp P.cw) (s : State.At P) :
    (recordReply op s).draws = if hostDraws op s.toBlock then s.draws + 1 else s.draws := rfl

/-! ### `onBlock` -/

@[simp] theorem onBlock_next (s : State.At P) (b : Block P.cw) :
    onBlock s (.next b) = .next (s.withBlock b) := rfl
@[simp] theorem onBlock_fault (s : State.At P) (f : Fault) : onBlock s (.fault f) = .fault f := rfl
@[simp] theorem onBlock_refused (s : State.At P) (r : Refusal) : onBlock s (.refused r) = .refused r := rfl

theorem onBlock_eq_next {s t : State.At P} {o : Host.Outcome (Block P.cw) Fault Refusal}
    (h : onBlock s o = .next t) : ∃ b, o = .next b ∧ t = s.withBlock b := by
  cases o with
  | next b => exact ⟨b, rfl, (Host.Outcome.next.inj h).symm⟩
  | fault f => cases h
  | refused r => cases h

end Sys2Proof.Machine
end

