-- ==== Sys2Proof/Laws/Memory.lean ====
section
/-! SUPPORT. The laws of sparse memory: read after write, the canonical form is kept, and memories that
read alike are equal. -/

namespace Sys2Proof.Machine

variable {α : Type} {cw : Nat}

theorem Memory.read_write_same (m : List (Nat × α)) (a : Nat) (v : α) :
    Memory.read (Memory.write m a v) a = some v := by
  induction m with
  | nil => simp [Memory.write, Memory.read]
  | cons c m ih =>
    obtain ⟨k, w⟩ := c
    simp only [Memory.write]
    split
    · simp [Memory.read]
    · split
      · simp [Memory.read]
      · rename_i h; simp [Memory.read, h, ih]

theorem Memory.read_write_other (m : List (Nat × α)) {a i : Nat} (v : α) (h : i ≠ a) :
    Memory.read (Memory.write m a v) i = Memory.read m i := by
  induction m with
  | nil => simp [Memory.write, Memory.read, h]
  | cons c m ih =>
    obtain ⟨k, w⟩ := c
    simp only [Memory.write]
    split
    · simp [Memory.read, h]
    · split
      · rename_i e; subst e; simp [Memory.read, h]
      · simp [Memory.read, ih]

/-- Read after write, in one line. -/
theorem Memory.read_write (m : List (Nat × α)) (a i : Nat) (v : α) :
    Memory.read (Memory.write m a v) i = if i = a then some v else Memory.read m i := by
  split
  · rename_i h; subst h; exact Memory.read_write_same m i v
  · rename_i h; exact Memory.read_write_other m v h

/-- Every entry of a memory just written is the one written or was there before. -/
theorem Memory.mem_write {m : List (Nat × α)} {a : Nat} {v : α} {c : Nat × α}
    (h : c ∈ Memory.write m a v) : c = (a, v) ∨ c ∈ m := by
  induction m with
  | nil => left; simpa [Memory.write] using h
  | cons d m ih =>
    obtain ⟨k, w⟩ := d
    simp only [Memory.write] at h
    split at h
    · simpa using h
    · split at h
      · rcases List.mem_cons.mp h with h | h
        · exact .inl h
        · exact .inr (List.mem_cons_of_mem _ h)
      · rcases List.mem_cons.mp h with h | h
        · exact .inr (h ▸ List.mem_cons_self)
        · exact (ih h).imp id (List.mem_cons_of_mem _)

/-- A write keeps the canonical form. -/
theorem Memory.write_wf {m : List (Nat × α)} (hm : Memory.wf m) (a : Nat) (v : α) :
    Memory.wf (Memory.write m a v) := by
  induction m with
  | nil => simp [Memory.write, Memory.wf]
  | cons d m ih =>
    obtain ⟨k, w⟩ := d
    obtain ⟨hk, hm'⟩ := List.pairwise_cons.mp hm
    simp only [Memory.write]
    split
    · rename_i h
      refine List.pairwise_cons.mpr ⟨?_, hm⟩
      intro x hx
      rcases List.mem_cons.mp hx with rfl | hx
      · exact h
      · exact h.trans (hk x hx)
    · split
      · rename_i e; subst e; exact List.pairwise_cons.mpr ⟨hk, hm'⟩
      · refine List.pairwise_cons.mpr ⟨?_, ih hm'⟩
        intro x hx
        obtain ⟨c, hc, rfl⟩ := List.mem_map.mp hx
        rcases Memory.mem_write hc with rfl | hc
        · simp only; omega
        · exact hk _ (List.mem_map_of_mem hc)

/-- A write below a bound keeps the bound. -/
theorem Memory.write_below {m : List (Nat × α)} {n : Nat} (hm : Memory.below m n) {a : Nat}
    (ha : a < n) (v : α) : Memory.below (Memory.write m a v) n := by
  intro c hc
  rcases Memory.mem_write hc with rfl | hc
  · exact ha
  · exact hm c hc

/-- An address below every listed one reads as unwritten. -/
theorem Memory.read_eq_none_of_lt {m : List (Nat × α)} {a : Nat} (h : ∀ c ∈ m, a < c.1) :
    Memory.read m a = none := by
  induction m with
  | nil => rfl
  | cons c m ih =>
    have := h c List.mem_cons_self
    rw [Memory.read, if_neg (by omega)]
    exact ih fun d hd => h d (List.mem_cons_of_mem _ hd)

/-! ### The three memories of the block -/

theorem nodeAt_writeNode (b : Block cw) (h i : Handle) (e : NodeEntry) :
    nodeAt (writeNode b h e) i = if i = h then some e else nodeAt b i := by
  simp [nodeAt, Memory.read_write, BitVec.toNat_inj]

theorem payAt_writePay (b : Block cw) (a i : Nat) (B : Byte) :
    payAt (writePay b a B) i = if i = a then B else payAt b i := by
  simp only [payAt, writePay_pay, writePay_epoch, Memory.read_write]; split <;> rfl

theorem outAt_writeOut (b : Block cw) (a i : Nat) (v : Byte) :
    outAt (writeOut b a v) i = if i = a then v else outAt b i := by
  simp only [outAt, writeOut_out, writeOut_epoch, Memory.read_write]; split <;> rfl

/-- NODE reads depend on the field NODE alone. -/
theorem nodeAt_congr {b c : Block cw} (h : b.node = c.node) (i : Handle) : nodeAt b i = nodeAt c i := by
  simp [nodeAt, h]

/-- PAY reads depend on PAY and the draw of its unwritten bytes alone. -/
theorem payAt_congr {b c : Block cw} (h : b.pay = c.pay) (he : b.epoch = c.epoch) (i : Nat) :
    payAt b i = payAt c i := by simp [payAt, h, he]

/-- OUT reads depend on OUT and the draw of its unwritten bytes alone. -/
theorem outAt_congr {b c : Block cw} (h : b.out = c.out) (he : b.epoch = c.epoch) (i : Nat) :
    outAt b i = outAt c i := by simp [outAt, h, he]

end Sys2Proof.Machine
end

