-- ==== Sys2Proof/Laws/Encoding.lean ====
section
/-! SUPPORT. Node words as numbers (R84, R85), and packed bits read back by the fetch (R52, R160). -/

namespace Sys2Proof

/-- Bit 18 of a node word, LEAF, as a comparison. -/
theorem nodeWord_leafBit (w : NodeWord) : w.getLsbD 18 = decide (2 ^ 18 ≤ w.toNat) := by
  have h := w.isLt
  simp only [BitVec.getLsbD, Nat.testBit_eq_decide_div_mod_eq]
  congr 1
  simp only [eq_iff_iff]
  omega

theorem encodeNode_leaf_toNat (s : Byte) : (encodeNode (.leaf s)).toNat = 0x40000 + s.toNat := by
  have := s.isLt
  simp only [encodeNode, BitVec.toNat_ofNat]; omega

theorem encodeNode_internal_toNat (l r : Handle) :
    (encodeNode (.internal l r)).toNat = 512 * l.toNat + r.toNat := by
  have := l.isLt
  have := r.isLt
  simp only [encodeNode, BitVec.toNat_ofNat]; omega

theorem nodeReadWord_leaf (s : Byte) :
    nodeReadWord (some (.leaf s)) = BitVec.ofNat 20 (0x80000 + 0x40000 + s.toNat) := by
  simp only [nodeReadWord, encodeNode_leaf_toNat, Nat.add_assoc]

theorem nodeReadWord_internal (l r : Handle) :
    nodeReadWord (some (.internal l r)) = BitVec.ofNat 20 (0x80000 + 512 * l.toNat + r.toNat) := by
  simp only [nodeReadWord, encodeNode_internal_toNat, Nat.add_assoc]

/-- A word with bit 18 set, decoded. -/
theorem decodeNode_of_leafBit {w : NodeWord} (h : 2 ^ 18 ≤ w.toNat) :
    decodeNode w = .leaf (BitVec.ofNat 8 w.toNat) := by
  rw [decodeNode, nodeWord_leafBit, if_pos (by simpa using h)]
  congr 1

/-- A word with bit 18 clear, decoded: the quotient and the remainder by 512. -/
theorem decodeNode_of_noLeafBit {w : NodeWord} (h : w.toNat < 2 ^ 18) :
    decodeNode w = .internal (BitVec.ofNat 9 (w.toNat / 512)) (BitVec.ofNat 9 (w.toNat % 512)) := by
  rw [decodeNode, nodeWord_leafBit, if_neg (by simpa using h)]
  congr 1 <;> apply BitVec.eq_of_toNat_eq <;> simp [Nat.shiftRight_eq_div_pow]

namespace Machine.Codec

/-- Bit `7 - j` of the byte packed from `f` is `f j`. -/
theorem streamBit_byteOfBits (f : Nat → Bool) {j : Nat} (hj : j < 8) :
    streamBit (byteOfBits f) (BitVec.ofNat 3 j) = f j := by
  have key : ∀ a b c d e g h i : Bool, ∀ j : Fin 8,
      (BitVec.ofNat 8 (a.toNat * 128 + b.toNat * 64 + c.toNat * 32 + d.toNat * 16 + e.toNat * 8 +
        g.toNat * 4 + h.toNat * 2 + i.toNat)).getLsbD (7 - (BitVec.ofNat 3 j.val).toNat) =
      ![a, b, c, d, e, g, h, i] j := by decide
  have := key (f 0) (f 1) (f 2) (f 3) (f 4) (f 5) (f 6) (f 7) ⟨j, hj⟩
  unfold streamBit byteOfBits
  rw [this]
  interval_cases j <;> rfl

theorem pack_length (bits : List Bool) : (pack bits).length = (bits.length + 7) / 8 := by
  simp [pack]

theorem pack_get (bits : List Bool) {i : Nat} (h : i < (bits.length + 7) / 8) :
    (pack bits)[i]? = some (byteOfBits fun j => bits.getD (8 * i + j) false) := by
  simp [pack, h]

/-- The bits of a list of bytes, in the order of R5. -/
def bitsOf (bytes : List Byte) : List Bool :=
  (List.range (8 * bytes.length)).map fun k => streamBit (bytes.getD (k / 8) 0) (BitVec.ofNat 3 (k % 8))

theorem bitsOf_get (bytes : List Byte) {k : Nat} (h : k < 8 * bytes.length) :
    (bitsOf bytes)[k]? = some (streamBit (bytes.getD (k / 8) 0) (BitVec.ofNat 3 (k % 8))) := by
  simp [bitsOf, h]

theorem bitsOf_append (x y : List Byte) : bitsOf (x ++ y) = bitsOf x ++ bitsOf y := by
  have hx : (bitsOf x).length = 8 * x.length := by simp [bitsOf]
  apply List.ext_getElem?
  intro k
  rcases Nat.lt_or_ge k (8 * x.length) with h | h
  · rw [List.getElem?_append_left (by omega), bitsOf_get x h,
      bitsOf_get _ (by rw [List.length_append]; omega)]
    simp [List.getD, List.getElem?_append_left (show k / 8 < x.length by omega)]
  · rw [List.getElem?_append_right (by omega), hx]
    rcases Nat.lt_or_ge k (8 * (x ++ y).length) with h' | h'
    · rw [List.length_append] at h'
      rw [bitsOf_get y (by omega), bitsOf_get _ (by rw [List.length_append]; omega)]
      have e1 : (k - 8 * x.length) / 8 = k / 8 - x.length := by omega
      have e2 : (k - 8 * x.length) % 8 = k % 8 := by omega
      simp [List.getD, List.getElem?_append_right (show x.length ≤ k / 8 by omega), e1, e2]
    · rw [List.length_append] at h'
      rw [List.getElem?_eq_none (by simp [bitsOf]; omega),
        List.getElem?_eq_none (by simp [bitsOf]; omega)]

/-- Packed bits are read back in order, followed by the pad bits, which are 0. -/
theorem bitsOf_pack (bits : List Bool) :
    bitsOf (pack bits) = bits ++ List.replicate (8 * (pack bits).length - bits.length) false := by
  have hL := pack_length bits
  apply List.ext_getElem?
  intro k
  rcases Nat.lt_or_ge k (8 * (pack bits).length) with h | h
  · rw [bitsOf_get _ h, List.getD, pack_get _ (by omega), Option.getD_some,
      streamBit_byteOfBits _ (Nat.mod_lt _ (by omega)), show 8 * (k / 8) + k % 8 = k by omega]
    rcases Nat.lt_or_ge k bits.length with hk | hk
    · simp [List.getElem?_append_left hk, hk]
    · rw [List.getElem?_append_right hk, List.getElem?_replicate, if_pos (by omega)]
      simp [List.getD, List.getElem?_eq_none hk]
  · rw [List.getElem?_eq_none (by simp [bitsOf]; omega),
      List.getElem?_eq_none (by simp; omega)]

/-- A block whose PAY holds `bytes` has their bits as its stream bits. -/
theorem streamBits_of_bytes {cw : Nat} {b : Block cw} {bytes : List Byte}
    (hl : b.paylen.toNat = bytes.length)
    (h : ∀ i, i < bytes.length → bytes[i]? = some (payAt b i)) : streamBits b = bitsOf bytes := by
  unfold streamBits bitsOf
  rw [hl]
  apply List.map_congr_left
  intro k hk
  have hk : k < 8 * bytes.length := by simpa using hk
  simp only [streamBitAt, List.getD, h (k / 8) (by omega), Option.getD_some]

end Machine.Codec
end Sys2Proof
end

