-- ==== Sys2Proof/Laws/Ops.lean ====
section
/-! SUPPORT. One lemma per shared operation that says everything it can do: the pc, the tests of the
fetch, `emit`, `land`, `descend`, START, the fetch and the step of the engine. -/

namespace Sys2Proof.Machine

variable {cw : Nat} {P : Params}

/-! ### The program counter -/

/-- `advance_pc` moves BITPOS on by 1 (R117) when BYTEPOS has room. -/
theorem bitpos_advancePc (b : Block cw) (h : b.bytepos.toNat + 1 < 2 ^ cw) :
    bitpos (advancePc b) = bitpos b + 1 := by
  have hi := b.bitidx.isLt
  unfold bitpos advancePc
  split
  · rename_i h7
    have h1 : (1 : BitVec cw).toNat ≤ 1 := by
      simp only [BitVec.toNat_ofNat, BitVec.ofNat_eq_ofNat]; exact Nat.mod_le _ _
    have h1' : 1 < 2 ^ cw := by omega
    have h2 : (b.bytepos + 1).toNat = b.bytepos.toNat + 1 := by
      rw [BitVec.toNat_add, BitVec.ofNat_eq_ofNat, BitVec.toNat_ofNat, Nat.mod_eq_of_lt h1',
        Nat.mod_eq_of_lt h]
    have h3 : b.bitidx.toNat = 7 := by rw [h7]; rfl
    simp only [h2, h3]; simp; omega
  · rename_i h7
    have h3 : b.bitidx.toNat ≠ 7 := fun e => h7 (BitVec.eq_of_toNat_eq e)
    have h4 : (b.bitidx + 1).toNat = b.bitidx.toNat + 1 := by
      rw [BitVec.toNat_add]; simp; omega
    simp only [h4]; omega

/-- A counter of `cw` bits below another counter does not wrap when it is incremented (R122). -/
theorem toNat_succ_of_lt {x y : BitVec cw} (h : x.toNat < y.toNat) :
    (x + 1).toNat = x.toNat + 1 := by
  have hy := y.isLt
  have h1 : 1 < 2 ^ cw ∨ 2 ^ cw ≤ 1 := by omega
  rcases h1 with h1 | h1
  · rw [BitVec.toNat_add, BitVec.ofNat_eq_ofNat, BitVec.toNat_ofNat, Nat.mod_eq_of_lt h1,
      Nat.mod_eq_of_lt (by omega)]
  · omega

/-! ### The tests of the fetch -/

theorem fetchTest_of_exhausted {b : Block cw} (h : b.paylen.toNat ≤ b.bytepos.toNat) :
    fetchTest b = .error .trunc := by simp [fetchTest, h]

theorem fetchTest_of_invalid {b : Block cw} (h : b.bytepos.toNat < b.paylen.toNat)
    (hn : nodeAt b b.cur = none) : fetchTest b = .error .tree := by
  simp [fetchTest, Nat.not_le.mpr h, hn]

theorem fetchTest_of_valid {b : Block cw} {e : NodeEntry} (h : b.bytepos.toNat < b.paylen.toNat)
    (hn : nodeAt b b.cur = some e) : fetchTest b = .entry e := by
  simp [fetchTest, Nat.not_le.mpr h, hn]

/-- Everything the tests can answer, in the order of R197. -/
theorem fetchTest_cases (b : Block cw) :
    (b.paylen.toNat ≤ b.bytepos.toNat ∧ fetchTest b = .error .trunc) ∨
    (b.bytepos.toNat < b.paylen.toNat ∧ nodeAt b b.cur = none ∧ fetchTest b = .error .tree) ∨
    (∃ e, b.bytepos.toNat < b.paylen.toNat ∧ nodeAt b b.cur = some e ∧ fetchTest b = .entry e) := by
  rcases Nat.lt_or_ge b.bytepos.toNat b.paylen.toNat with h | h
  · cases hn : nodeAt b b.cur with
    | none => exact .inr (.inl ⟨h, rfl, fetchTest_of_invalid h hn⟩)
    | some e => exact .inr (.inr ⟨e, h, rfl, fetchTest_of_valid h hn⟩)
  · exact .inl ⟨h, fetchTest_of_exhausted h⟩

/-! ### Emitting a symbol and landing -/

/-- The block after a symbol is emitted (R114, R116). -/
theorem emit_of_room {sym : Byte} {b : Block P.cw} (h : b.emitted.toNat < P.outCap) :
    emit P sym b = .next
      { writeOut b b.emitted.toNat sym with
        emitted := b.emitted + 1
        cur := b.root
        runState := if b.emitted + 1 = b.symcount then .done else b.runState } := by
  simp only [emit, if_pos h]

theorem emit_of_full {sym : Byte} {b : Block P.cw} (h : P.outCap ≤ b.emitted.toNat) :
    emit P sym b = .fault .outIndexOutOfRange := by
  simp [emit, Nat.not_lt.mpr h]

theorem land_of_invalid {nxt : Handle} {b : Block P.cw} (h : nodeAt b nxt = none) :
    land P nxt b = .next (raiseError .tree b) := by simp [land, h]

theorem land_of_internal {nxt l r : Handle} {b : Block P.cw}
    (h : nodeAt b nxt = some (.internal l r)) :
    land P nxt b = .next { advancePc b with cur := nxt } := by simp [land, h]

theorem land_of_leaf {nxt : Handle} {sym : Byte} {b : Block P.cw}
    (h : nodeAt b nxt = some (.leaf sym)) : land P nxt b = emit P sym (advancePc b) := by
  simp [land, h]

/-! ### DL and DR -/

theorem descend_of_not_run {d : Dir} {b : Block P.cw} (h : b.runState ≠ .run) :
    descend P d b = .next b := by simp [descend, h]

theorem descend_of_error {d : Dir} {b : Block P.cw} {e : ErrCode} (h : b.runState = .run)
    (ht : fetchTest b = .error e) : descend P d b = .next (raiseError e b) := by
  simp [descend, h, ht]

theorem descend_of_entry {d : Dir} {b : Block P.cw} {e : NodeEntry} (h : b.runState = .run)
    (ht : fetchTest b = .entry e) : descend P d b = land P (childOf d b.cur e) b := by
  simp [descend, h, ht]

/-- The instruction a stream bit selects descends in that bit's direction. -/
theorem execBlock_decodeStreamBit (bit : Bool) (b : Block P.cw) :
    execBlock P (decodeStreamBit bit) b = descend P (dirOf bit) b := by
  cases bit <;> rfl

/-! ### START -/

theorem startRun_of_run {b : Block P.cw} (h : b.runState = .run) : startRun P b = b := by
  simp [startRun, h]

theorem startRun_of_alloc {b : Block P.cw} (h : b.runState ≠ .run)
    (hc : P.outCap < b.symcount.toNat ∨ P.payCap < b.paylen.toNat) :
    startRun P b = raiseError .alloc (clearRun b) := by simp [startRun, h, hc]

theorem startRun_of_zero {b : Block P.cw} (h : b.runState ≠ .run)
    (hp : b.paylen.toNat ≤ P.payCap) (hz : b.symcount = 0) :
    startRun P b = { clearRun b with runState := .done } := by
  have hs : b.symcount.toNat = 0 := by simp [hz]
  simp [startRun, h, hz, hp]

theorem startRun_of_count {b : Block P.cw} (h : b.runState ≠ .run)
    (ho : b.symcount.toNat ≤ P.outCap) (hp : b.paylen.toNat ≤ P.payCap) (hz : b.symcount ≠ 0) :
    startRun P b = { clearRun b with runState := .run } := by
  unfold startRun
  rw [if_neg h, if_neg (by omega), if_neg hz]

/-! ### The step of the engine -/

theorem engineStep_of_not_run {b : Block P.cw} (h : b.runState ≠ .run) :
    engineStep P b = .next b := by simp [engineStep, h]

/-- Everything a step of the engine does in RUN: an error of the tests, else the descent its stream bit
selects, from a byte that exists. -/
theorem engineStep_of_run {b : Block P.cw} (h : b.runState = .run) :
    engineStep P b =
      match fetchTest b with
      | .error e => .next (raiseError e b)
      | .entry e =>
        if b.bytepos.toNat < P.payCap then
          land P (childOf (dirOf (streamBit (payAt b b.bytepos.toNat) b.bitidx)) b.cur e) b
        else .fault .payIndexOutOfRange := by
  rcases fetchTest_cases b with ⟨-, ht⟩ | ⟨-, -, ht⟩ | ⟨e, -, -, ht⟩
  · simp [engineStep, fetch, h, ht]
  · simp [engineStep, fetch, h, ht]
  · by_cases hc : b.bytepos.toNat < P.payCap
    · simp only [engineStep, h, fetch, ht, if_pos hc, if_true, execBlock_decodeStreamBit,
        descend_of_entry h ht]
    · simp [engineStep, fetch, h, ht, hc]

/-- `exec` is the dispatch at the default parameters. -/
theorem exec_eq_execAt : exec = execAt := by
  funext i s; cases i <;> rfl

theorem execAt_eq (i : Instr) (s : State.At P) :
    execAt i s = onBlock s (execBlock P i s.toBlock) := by
  cases i <;> rfl

theorem exec_eq (i : Instr) (s : State) :
    exec i s = onBlock s (execBlock Config.params i s.toBlock) := by
  rw [exec_eq_execAt, execAt_eq]

/-- The engine's move in the machine is the step of the block. -/
theorem engineTurn_eq (s : State.At P) : engineTurn execAt s = onBlock s (engineStep P s.toBlock) := by
  unfold engineTurn engineStep
  split
  · cases fetch P s.toBlock with
    | error e => rfl
    | instr i => exact execAt_eq i s
    | fault f => rfl
  · rfl

/-! ### Runs of the engine -/

theorem runEngine_succ (k : Nat) (b : Block P.cw) :
    runEngine P (k + 1) b = match engineStep P b with
      | .next b' => runEngine P k b'
      | .fault f => .fault f
      | .refused r => .refused r := rfl

theorem runEngine_succ_next {k : Nat} {b b' : Block P.cw} (h : engineStep P b = .next b') :
    runEngine P (k + 1) b = runEngine P k b' := by rw [runEngine_succ, h]

theorem runEngine_of_not_run {b : Block P.cw} (h : b.runState ≠ .run) (k : Nat) :
    runEngine P k b = .next b := by
  induction k with
  | zero => rfl
  | succ k ih => rw [runEngine_succ_next (engineStep_of_not_run h), ih]

end Sys2Proof.Machine
end

