-- ==== Sys2Proof/Laws/HostOps.lean ====
section
/-! SUPPORT. The host's move: what each operation does, once. -/

namespace Sys2Proof.Machine

variable {cw : Nat} {P : Params}

/-- Every move of the host answers a next state: its effect on the block, its reply, its draw. The
command write, which goes through the dispatch, is no exception. -/
theorem hostTurn_eq (op : HostOp P.cw) (s : State.At P) :
    hostTurn execAt op s = .next ((recordReply op s).withBlock (hostEffect P op s.toBlock)) := by
  unfold hostTurn
  split
  · rename_i v
    unfold hostEffect decodeCommand
    by_cases hv : v.getLsbD 0 = true
    · simp only [hv, if_true]
      by_cases hr : s.runState = .run
      · simp [execAt, execStart, startRun_of_run, hr]
      · simp [execAt, execStart, hr]
    · simp [hv]; rfl
  · rfl

/-- While STATE = RUN only RESET has an effect (R62, R142). -/
theorem hostEffect_of_run {op : HostOp P.cw} {b : Block P.cw} (h : b.runState = .run)
    (ho : op ≠ .reset) : hostEffect P op b = b := by
  cases op <;> simp_all [hostEffect]

theorem hostEffect_regWrite {n : Nat} {v : BitVec P.cw} {b : Block P.cw} (h : b.runState ≠ .run)
    (hn : n ≠ 0) : hostEffect P (.regWrite n v) b = storeReg b n v := by
  simp [hostEffect, h, hn]

theorem hostEffect_start {v : BitVec P.cw} {b : Block P.cw} (h : b.runState ≠ .run)
    (hv : v.getLsbD 0 = true) : hostEffect P (.regWrite 0 v) b = startRun P b := by
  simp [hostEffect, h, decodeCommand, hv]

theorem hostEffect_noCommand {v : BitVec P.cw} {b : Block P.cw} (hv : v.getLsbD 0 = false) :
    hostEffect P (.regWrite 0 v) b = b := by
  simp only [hostEffect, decodeCommand, hv]; split <;> rfl

theorem hostEffect_nodeWrite {h : Handle} {w : NodeWord} {b : Block P.cw} (hr : b.runState ≠ .run) :
    hostEffect P (.nodeWrite h w) b = writeNode b h (decodeNode w) := by simp [hostEffect, hr]

theorem hostEffect_payWrite {i : Nat} {B : Byte} {b : Block P.cw} (hr : b.runState ≠ .run)
    (hi : i < P.payCap) : hostEffect P (.payWrite i B) b = writePay b i B := by
  simp [hostEffect, hr, hi]

theorem hostEffect_payWrite_beyond {i : Nat} {B : Byte} {b : Block P.cw} (hi : P.payCap ≤ i) :
    hostEffect P (.payWrite i B) b = b := by
  simp [hostEffect, Nat.not_lt.mpr hi]

/-! ### `storeReg`, field by field -/

@[simp] theorem storeReg_root (b : Block cw) (v : BitVec cw) :
    storeReg b 2 v = { b with root := v.setWidth 9 } := rfl
@[simp] theorem storeReg_symcount (b : Block cw) (v : BitVec cw) :
    storeReg b 3 v = { b with symcount := v } := rfl
@[simp] theorem storeReg_paylen (b : Block cw) (v : BitVec cw) :
    storeReg b 4 v = { b with paylen := v } := rfl

/-- A register write that is not to ROOT, SYMCOUNT or PAYLEN stores nothing (R134). -/
theorem storeReg_other (b : Block cw) {n : Nat} (v : BitVec cw) (h : n ≠ 2 ∧ n ≠ 3 ∧ n ≠ 4) :
    storeReg b n v = b := by
  unfold storeReg; split <;> simp_all

@[simp] theorem storeReg_runState (b : Block cw) (n : Nat) (v : BitVec cw) :
    (storeReg b n v).runState = b.runState := by unfold storeReg; split <;> rfl

/-! ### One step of the machine -/

/-- The step of the fixed names is the step at the default parameters. -/
theorem step_eq_stepAt : step = stepAt := by
  funext s; unfold step stepAt; rw [exec_eq_execAt]

theorem stepAt_of_no_turn {s : State.At P} (h : s.turns = []) :
    stepAt s = onBlock s (engineStep P s.toBlock) := by
  simp [stepAt, takeTurn, h, engineTurn_eq]

theorem stepAt_of_engine {s : State.At P} {rest : List (Turn P.cw)} (h : s.turns = .engine :: rest) :
    stepAt s = onBlock { s with turns := rest } (engineStep P s.toBlock) := by
  simp [stepAt, takeTurn, h, engineTurn_eq]

/-- The engine's move, whether its turn is pending or no turn is. -/
theorem stepAt_of_engineMoves {s : State.At P} (h : s.engineMoves) :
    stepAt s = onBlock { s with turns := s.turns.tail } (engineStep P s.toBlock) := by
  rcases h with h | h
  · cases hl : s.turns with
    | nil => simp [hl] at h
    | cons a rest =>
      obtain rfl : a = .engine := by simpa [hl] using h
      exact stepAt_of_engine hl
  · rw [stepAt_of_no_turn h]; congr 1; cases s; simp_all

theorem stepAt_of_host {s : State.At P} {op : HostOp P.cw} {rest : List (Turn P.cw)}
    (h : s.turns = .host op :: rest) :
    stepAt s = .next ((recordReply op { s with turns := rest }).withBlock (hostEffect P op s.toBlock)) := by
  simp [stepAt, takeTurn, h, hostTurn_eq]

theorem step_of_engineMoves {s : State} (h : s.engineMoves) :
    step s = onBlock { s with turns := s.turns.tail } (engineStep Config.params s.toBlock) := by
  rw [step_eq_stepAt, stepAt_of_engineMoves h]

theorem step_of_host {s : State} {op : HostOp Config.params.cw} {rest : List (Turn Config.params.cw)}
    (h : s.turns = .host op :: rest) :
    step s = .next ((recordReply op { s with turns := rest }).withBlock
      (hostEffect Config.params op s.toBlock)) := by
  rw [step_eq_stepAt, stepAt_of_host h]

end Sys2Proof.Machine
end

