-- ==== Sys2Proof/Laws/Engine.lean ====
section
/-! SUPPORT. Everything START, DL, DR and a step of the engine can do, each once, in terms of the fields
of the block; and what keeps a block legal. -/

namespace Sys2Proof.Machine

variable {cw : Nat} {P : Params}

/-- The block after a step that emits `sym`, written out field by field. -/
theorem emit_advancePc {b : Block P.cw} {sym : Byte} (hr : b.runState = .run)
    (ho : b.emitted.toNat < P.outCap) :
    emit P sym (advancePc b) = .next { b with
      out := Memory.write b.out b.emitted.toNat sym
      emitted := b.emitted + 1
      cur := b.root
      bytepos := if b.bitidx = 7 then b.bytepos + 1 else b.bytepos
      bitidx := if b.bitidx = 7 then 0 else b.bitidx + 1
      runState := if b.emitted + 1 = b.symcount then .done else .run } := by
  rw [emit_of_room (by simpa using ho)]
  simp only [writeOut, advancePc_emitted, advancePc_root, advancePc_symcount, advancePc_out,
    advancePc_runState, hr, advancePc_err, advancePc_paylen, advancePc_node, advancePc_pay,
    advancePc_epoch, advancePc_bytepos, advancePc_bitidx]

theorem fetch_of_entry {b : Block P.cw} {e : NodeEntry} (ht : fetchTest b = .entry e)
    (hc : b.bytepos.toNat < P.payCap) :
    fetch P b = .instr (decodeStreamBit (streamBit (payAt b b.bytepos.toNat) b.bitidx)) := by
  simp [fetch, ht, hc]

/-- Everything START can do. -/
theorem startRun_cases (b : Block P.cw) :
    (b.runState = .run ∧ startRun P b = b) ∨
    (b.runState ≠ .run ∧ (P.outCap < b.symcount.toNat ∨ P.payCap < b.paylen.toNat) ∧
      startRun P b = raiseError .alloc (clearRun b)) ∨
    (b.runState ≠ .run ∧ b.symcount.toNat ≤ P.outCap ∧ b.paylen.toNat ≤ P.payCap ∧ b.symcount = 0 ∧
      startRun P b = { clearRun b with runState := .done }) ∨
    (b.runState ≠ .run ∧ b.symcount.toNat ≤ P.outCap ∧ b.paylen.toNat ≤ P.payCap ∧ b.symcount ≠ 0 ∧
      startRun P b = { clearRun b with runState := .run }) := by
  by_cases hr : b.runState = .run
  · exact .inl ⟨hr, startRun_of_run hr⟩
  · right
    by_cases hc : P.outCap < b.symcount.toNat ∨ P.payCap < b.paylen.toNat
    · exact .inl ⟨hr, hc, startRun_of_alloc hr hc⟩
    · right
      have ho : b.symcount.toNat ≤ P.outCap := by omega
      have hp : b.paylen.toNat ≤ P.payCap := by omega
      by_cases hz : b.symcount = 0
      · exact .inl ⟨hr, ho, hp, hz, startRun_of_zero hr hp hz⟩
      · exact .inr ⟨hr, ho, hp, hz, startRun_of_count hr ho hp hz⟩

/-- What a landing on `nxt` that goes on to a next block has done: an error, a move to an internal
node, or an emitted symbol. -/
theorem land_cases {nxt : Handle} {b b' : Block P.cw} (hr : b.runState = .run)
    (h : land P nxt b = .next b') :
    (nodeAt b nxt = none ∧ b' = raiseError .tree b) ∨
    (∃ l r, nodeAt b nxt = some (.internal l r) ∧ b' = { advancePc b with cur := nxt }) ∨
    (∃ sym, nodeAt b nxt = some (.leaf sym) ∧ b.emitted.toNat < P.outCap ∧
      b' = { b with
        out := Memory.write b.out b.emitted.toNat sym
        emitted := b.emitted + 1
        cur := b.root
        bytepos := if b.bitidx = 7 then b.bytepos + 1 else b.bytepos
        bitidx := if b.bitidx = 7 then 0 else b.bitidx + 1
        runState := if b.emitted + 1 = b.symcount then .done else .run }) := by
  cases hm : nodeAt b nxt with
  | none => rw [land_of_invalid hm] at h; exact .inl ⟨rfl, (Host.Outcome.next.inj h).symm⟩
  | some m =>
    cases m with
    | internal l r =>
      rw [land_of_internal hm] at h
      exact .inr (.inl ⟨l, r, rfl, (Host.Outcome.next.inj h).symm⟩)
    | leaf sym =>
      rw [land_of_leaf hm] at h
      by_cases ho : b.emitted.toNat < P.outCap
      · rw [emit_advancePc hr ho] at h
        exact .inr (.inr ⟨sym, rfl, ho, (Host.Outcome.next.inj h).symm⟩)
      · rw [emit_of_full (by simpa using ho)] at h; cases h

/-- A landing with room in OUT goes on to a next block. -/
theorem land_next {nxt : Handle} {b : Block P.cw} (hr : b.runState = .run)
    (ho : b.emitted.toNat < P.outCap) : ∃ b', land P nxt b = .next b' := by
  cases hm : nodeAt b nxt with
  | none => exact ⟨_, land_of_invalid hm⟩
  | some m =>
    cases m with
    | leaf sym => exact ⟨_, (land_of_leaf hm).trans (emit_advancePc hr ho)⟩
    | internal l r => exact ⟨_, land_of_internal hm⟩

/-- Everything DL and DR can do in RUN: an error of the tests, or a landing. -/
theorem descend_cases {d : Dir} {b : Block P.cw} (hr : b.runState = .run) :
    (b.paylen.toNat ≤ b.bytepos.toNat ∧ descend P d b = .next (raiseError .trunc b)) ∨
    (b.bytepos.toNat < b.paylen.toNat ∧ nodeAt b b.cur = none ∧
      descend P d b = .next (raiseError .tree b)) ∨
    (∃ e, b.bytepos.toNat < b.paylen.toNat ∧ nodeAt b b.cur = some e ∧
      descend P d b = land P (childOf d b.cur e) b) := by
  rcases fetchTest_cases b with ⟨hp, ht⟩ | ⟨hp, hn, ht⟩ | ⟨e, hp, hn, ht⟩
  · exact .inl ⟨hp, descend_of_error hr ht⟩
  · exact .inr (.inl ⟨hp, hn, descend_of_error hr ht⟩)
  · exact .inr (.inr ⟨e, hp, hn, descend_of_entry hr ht⟩)

/-- Everything a step of the engine can do in RUN: an error of the tests, or a landing on the child the
stream bit selects. -/
theorem engineStep_cases {b : Block P.cw} (hr : b.runState = .run) :
    (b.paylen.toNat ≤ b.bytepos.toNat ∧ engineStep P b = .next (raiseError .trunc b)) ∨
    (b.bytepos.toNat < b.paylen.toNat ∧ nodeAt b b.cur = none ∧
      engineStep P b = .next (raiseError .tree b)) ∨
    (∃ e, b.bytepos.toNat < b.paylen.toNat ∧ nodeAt b b.cur = some e ∧
      engineStep P b =
        if b.bytepos.toNat < P.payCap then
          land P (childOf (dirOf (streamBit (payAt b b.bytepos.toNat) b.bitidx)) b.cur e) b
        else .fault .payIndexOutOfRange) := by
  rcases fetchTest_cases b with ⟨hp, ht⟩ | ⟨hp, hn, ht⟩ | ⟨e, hp, hn, ht⟩
  · exact .inl ⟨hp, by rw [engineStep_of_run hr, ht]⟩
  · exact .inr (.inl ⟨hp, hn, by rw [engineStep_of_run hr, ht]⟩)
  · exact .inr (.inr ⟨e, hp, hn, by rw [engineStep_of_run hr, ht]⟩)

/-! ### Legal blocks -/

/-- An error entry keeps a block legal: outside RUN only R39 (a) asks for anything. -/
theorem legal_raise {b : Block P.cw} (h : Legal P b) {e : ErrCode} (he : e ≠ .none) :
    Legal P (raiseError e b) where
  err_iff := by simp [he]
  emitted_lt := by simp
  symcount_le := by simp
  bytepos_le := by simp
  paylen_le := by simp
  bitidx_zero := by simp
  cur_ok := by simp
  node_wf := h.node_wf
  pay_wf := h.pay_wf
  out_wf := h.out_wf
  node_below := h.node_below
  pay_below := h.pay_below
  out_below := h.out_below

/-- A block outside RUN, with its status in order and the memories of a legal block, is legal. -/
theorem legal_of_not_run {b c : Block P.cw} (h : Legal P b) (hr : c.runState ≠ .run)
    (hs : c.err ≠ .none ↔ c.runState = .error) (hn : c.node = b.node) (hp : c.pay = b.pay)
    (ho : c.out = b.out) : Legal P c where
  err_iff := hs
  emitted_lt h := absurd h hr
  symcount_le h := absurd h hr
  bytepos_le h := absurd h hr
  paylen_le h := absurd h hr
  bitidx_zero h := absurd h hr
  cur_ok h := absurd h hr
  node_wf := hn ▸ h.node_wf
  pay_wf := hp ▸ h.pay_wf
  out_wf := ho ▸ h.out_wf
  node_below := hn ▸ h.node_below
  pay_below := hp ▸ h.pay_below
  out_below := ho ▸ h.out_below

/-- The pc after an advance from inside the payload: within it, and at a byte boundary at its end. -/
theorem advancePc_bounds {b : Block cw} (hp : b.bytepos.toNat < b.paylen.toNat) :
    (advancePc b).bytepos.toNat ≤ b.paylen.toNat ∧
      ((advancePc b).bytepos = b.paylen → (advancePc b).bitidx = 0) := by
  rw [advancePc_bytepos, advancePc_bitidx]
  split
  · rw [toNat_succ_of_lt hp]; exact ⟨hp, fun _ => rfl⟩
  · exact ⟨hp.le, fun e => by rw [e] at hp; omega⟩

end Sys2Proof.Machine
end

