-- ==== Sys2Proof/Laws/Run.lean ====
section
/-! SUPPORT. Runs: what a run keeps of the block at START, one step of it, the bits still to come, and
the decoding of one symbol and of all of them against `dec` (R121). -/

namespace Sys2Proof.Machine

variable {cw : Nat} {P : Params}

/-! ### Steps in sequence -/

theorem runEngine_add {j : Nat} {b c : Block P.cw} (h : runEngine P j b = .next c) (k : Nat) :
    runEngine P (j + k) b = runEngine P k c := by
  induction j generalizing b with
  | zero => cases h; rw [Nat.zero_add]
  | succ j ih =>
    rw [runEngine_succ] at h
    cases hs : engineStep P b with
    | next b' =>
      rw [hs] at h
      rw [show j + 1 + k = (j + k) + 1 by omega, runEngine_succ_next hs]
      exact ih h
    | fault f => rw [hs] at h; cases h
    | refused f => rw [hs] at h; cases h

/-- A run of `k + 1` steps that goes on to a next block has gone through one after `k`. -/
theorem runEngine_prefix {k : Nat} {b c : Block P.cw} (h : runEngine P (k + 1) b = .next c) :
    ∃ d, runEngine P k b = .next d ∧ engineStep P d = .next c := by
  induction k generalizing b with
  | zero =>
    rw [runEngine_succ] at h
    cases hs : engineStep P b with
    | next b' => rw [hs] at h; cases h; exact ⟨b, rfl, hs⟩
    | fault f => rw [hs] at h; cases h
    | refused f => rw [hs] at h; cases h
  | succ k ih =>
    rw [runEngine_succ] at h
    cases hs : engineStep P b with
    | next b' =>
      rw [hs] at h
      obtain ⟨d, h1, h2⟩ := ih h
      exact ⟨d, (runEngine_succ_next hs).trans h1, h2⟩
    | fault f => rw [hs] at h; cases h
    | refused f => rw [hs] at h; cases h

theorem core_run_succ {M : Host.Core} {n : Nat} {s s' : M.State} (h : M.step s = .next s') :
    M.run (n + 1) s = M.run n s' := by rw [Host.Core.run, h]

/-- A run one step longer takes the last step from where the shorter one ended. -/
theorem core_run_snoc {M : Host.Core} {n : Nat} : ∀ {s t : M.State}, M.run n s = .next t →
    M.run (n + 1) s = M.step t := by
  induction n with
  | zero =>
    intro s t h
    obtain rfl : s = t := Host.Outcome.next.inj h
    cases hs : M.step s with
    | next u => rw [core_run_succ hs]; rfl
    | fault f => rw [Host.Core.run, hs]
    | refused r => rw [Host.Core.run, hs]
  | succ n ih =>
    intro s t h
    cases hs : M.step s with
    | next u => rw [core_run_succ hs] at h ⊢; exact ih h
    | fault f => rw [Host.Core.run, hs] at h; cases h
    | refused r => rw [Host.Core.run, hs] at h; cases h

/-! ### What a run keeps -/

/-- `c` is a block of the run that START began at `b`: the configuration and the memories the engine
only reads are `b`'s, and the counters lie in their ranges (R39 (b)). -/
structure RunOf (P : Params) (b c : Block P.cw) : Prop where
  paylen : c.paylen = b.paylen
  symcount : c.symcount = b.symcount
  root : c.root = b.root
  node : c.node = b.node
  pay : c.pay = b.pay
  epoch : c.epoch = b.epoch
  emitted_lt : c.runState = .run → c.emitted.toNat < c.symcount.toNat
  bytepos_le : c.bytepos.toNat ≤ c.paylen.toNat
  bitidx_zero : c.bytepos = c.paylen → c.bitidx = 0
  status : c.runState = .run ∨ c.ended

theorem RunOf.bitpos_le {b c : Block P.cw} (h : RunOf P b c) : bitpos c ≤ 8 * b.paylen.toNat := by
  have h1 := h.bytepos_le
  have h2 := c.bitidx.isLt
  rw [← h.paylen]
  unfold bitpos
  rcases Nat.lt_or_ge c.bytepos.toNat c.paylen.toNat with hl | hl
  · omega
  · have e : c.bytepos = c.paylen := BitVec.eq_of_toNat_eq (by omega)
    rw [h.bitidx_zero e]; simp; omega

/-- A run begins at stream bit 0, with nothing emitted, at the root. -/
theorem startRun_runOf {b : Block P.cw} (h : Startable P b) :
    RunOf P b (startRun P b) ∧ (startRun P b).runState = .run ∧ bitpos (startRun P b) = 0 ∧
      (startRun P b).cur = b.root ∧ (startRun P b).emitted = 0 ∧ (startRun P b).err = .none := by
  obtain ⟨h1, h2, h3, h4⟩ := h
  rw [startRun_of_count h1 h3 h4 h2]
  have : b.symcount.toNat ≠ 0 := fun e => h2 (BitVec.eq_of_toNat_eq (by simpa using e))
  refine ⟨⟨rfl, rfl, rfl, rfl, rfl, rfl, fun _ => ?_, ?_, fun _ => rfl, .inl rfl⟩, rfl,
    by simp [bitpos], rfl, rfl, rfl⟩
  · simp; omega
  · simp

/-- One step of a run: it answers a block of the same run, and either ends with an error, TRUNC when no
bit was left, or moves the pc on by one bit. -/
theorem RunOf.step {b c : Block P.cw} (hb : Startable P b) (h : RunOf P b c) (hr : c.runState = .run) :
    ∃ c', engineStep P c = .next c' ∧ RunOf P b c' ∧
      ((c'.runState = .error ∧ (c.bytepos = c.paylen → c'.err = .trunc)) ∨
       (c'.runState ≠ .error ∧ c.bytepos.toNat < c.paylen.toNat ∧ bitpos c' = bitpos c + 1)) := by
  obtain ⟨-, -, h3, h4⟩ := hb
  have ho : c.emitted.toNat < P.outCap :=
    lt_of_lt_of_le (h.emitted_lt hr) (by rw [h.symcount]; exact h3)
  have herr : ∀ e, RunOf P b (raiseError e c) := fun e =>
    ⟨h.paylen, h.symcount, h.root, h.node, h.pay, h.epoch, by simp, h.bytepos_le, h.bitidx_zero,
      .inr (.inr rfl)⟩
  rcases engineStep_cases hr with ⟨-, hs⟩ | ⟨hp, -, hs⟩ | ⟨e, hp, -, hs⟩
  · exact ⟨_, hs, herr _, .inl ⟨rfl, fun _ => rfl⟩⟩
  · exact ⟨_, hs, herr _, .inl ⟨rfl, fun e => by rw [e] at hp; omega⟩⟩
  · rw [if_pos (lt_of_lt_of_le hp (by rw [h.paylen]; exact h4))] at hs
    obtain ⟨c', hl⟩ := land_next (nxt := childOf _ c.cur e) hr ho
    refine ⟨c', hs.trans hl, ?_⟩
    obtain ⟨ha, hz⟩ := advancePc_bounds hp
    have hbp := bitpos_advancePc c (by have := c.paylen.isLt; omega)
    rcases land_cases hr hl with ⟨-, rfl⟩ | ⟨l, r, -, rfl⟩ | ⟨sym, -, -, rfl⟩
    · exact ⟨herr _, .inl ⟨rfl, fun e => by rw [e] at hp; omega⟩⟩
    · refine ⟨⟨?_, ?_, ?_, ?_, ?_, ?_, ?_, ?_, ?_, .inl (by simpa using hr)⟩,
        .inr ⟨by simp [hr], hp, hbp⟩⟩ <;>
        simp only [advancePc_paylen, advancePc_symcount, advancePc_root, advancePc_node,
          advancePc_pay, advancePc_epoch, advancePc_runState, advancePc_emitted]
      exacts [h.paylen, h.symcount, h.root, h.node, h.pay, h.epoch, h.emitted_lt, ha, hz]
    · rw [advancePc_bytepos] at ha
      rw [advancePc_bytepos, advancePc_bitidx] at hz
      simp only [bitpos, advancePc_bytepos, advancePc_bitidx] at hbp
      refine ⟨⟨h.paylen, h.symcount, h.root, h.node, h.pay, h.epoch, fun hrun => ?_, ha, hz, ?_⟩,
        .inr ⟨?_, hp, by simp only [bitpos]; exact hbp⟩⟩
      · have h5 := toNat_succ_of_lt (h.emitted_lt hr)
        have h6 := h.emitted_lt hr
        dsimp only at hrun ⊢
        split at hrun
        · cases hrun
        · rename_i hne
          have : (c.emitted + 1).toNat ≠ c.symcount.toNat := fun e => hne (BitVec.eq_of_toNat_eq e)
          omega
      · dsimp only; split
        · exact .inr (.inl rfl)
        · exact .inl rfl
      · dsimp only; split <;> decide

/-- Every block reached from START is a block of the run, and no later than its pc says. -/
theorem RunOf.of_runEngine {b : Block P.cw} (hb : Startable P b) (k : Nat) (c : Block P.cw)
    (h : runEngine P k (startRun P b) = .next c) :
    RunOf P b c ∧ bitpos c ≤ k ∧ (c.runState = .run → bitpos c = k) := by
  induction k generalizing c with
  | zero =>
    obtain ⟨h1, -, h3, -⟩ := startRun_runOf hb
    cases h
    exact ⟨h1, h3.le, fun _ => h3⟩
  | succ k ih =>
    obtain ⟨d, h1, h2⟩ := runEngine_prefix h
    obtain ⟨hd, hle, heq⟩ := ih d h1
    by_cases hr : d.runState = .run
    · obtain ⟨c', hs, hR, hc⟩ := hd.step hb hr
      rw [h2] at hs; cases hs
      rcases hc with ⟨he, -⟩ | ⟨-, -, hbp⟩
      · refine ⟨hR, ?_, fun hr' => by rw [hr'] at he; cases he⟩
        have : bitpos c ≤ bitpos d := by
          have hj : engineStep P d = .next c := h2
          rcases engineStep_cases hr with ⟨-, hs⟩ | ⟨hp, -, hs⟩ | ⟨e, hp, -, hs⟩
          · rw [hs] at hj; cases hj; exact le_refl _
          · rw [hs] at hj; cases hj; exact le_refl _
          · split at hs
            · rw [hs] at hj
              rcases land_cases hr hj with ⟨-, rfl⟩ | ⟨l, r, -, rfl⟩ | ⟨sym, -, -, rfl⟩
              · exact le_refl _
              · simp [hr] at he
              · dsimp only at he; split at he <;> cases he
            · rw [hs] at hj; cases hj
        omega
      · exact ⟨hR, by omega, fun hr' => by rw [hbp, heq hr]⟩
    · rw [engineStep_of_not_run hr] at h2; cases h2
      exact ⟨hd, by omega, fun hr' => absurd hr' hr⟩

/-! ### The bits still to come -/

/-- The stream bits of a block from bit `p` on. -/
def bitsFrom (b : Block cw) (p : Nat) : List Bool :=
  (List.range' p (8 * b.paylen.toNat - p)).map (streamBitAt b)

theorem bitsFrom_zero (b : Block cw) : bitsFrom b 0 = streamBits b := by
  simp [bitsFrom, streamBits, List.range_eq_range']

@[simp] theorem bitsFrom_length (b : Block cw) (p : Nat) :
    (bitsFrom b p).length = 8 * b.paylen.toNat - p := by simp [bitsFrom]

theorem bitsFrom_cons (b : Block cw) {p : Nat} (h : p < 8 * b.paylen.toNat) :
    bitsFrom b p = streamBitAt b p :: bitsFrom b (p + 1) := by
  unfold bitsFrom
  rw [show 8 * b.paylen.toNat - p = (8 * b.paylen.toNat - (p + 1)) + 1 by omega,
    List.range'_succ]; rfl

theorem bitsFrom_nil (b : Block cw) {p : Nat} (h : 8 * b.paylen.toNat ≤ p) : bitsFrom b p = [] :=
  List.length_eq_zero_iff.mp (by simp; omega)

/-- The bit the fetch takes is stream bit number BITPOS (R30, R82). -/
theorem streamBitAt_bitpos (b : Block cw) :
    streamBitAt b (bitpos b) = streamBit (payAt b b.bytepos.toNat) b.bitidx := by
  have := b.bitidx.isLt
  unfold streamBitAt bitpos
  rw [show (8 * b.bytepos.toNat + b.bitidx.toNat) / 8 = b.bytepos.toNat by omega,
    show (8 * b.bytepos.toNat + b.bitidx.toNat) % 8 = b.bitidx.toNat by omega]
  simp

/-! ### Trees and outputs -/

theorem treeAt_congr {b c : Block cw} (h : b.node = c.node) (T : Tree) (x : Handle)
    (ht : treeAt b x T) : treeAt c x T := by
  induction T generalizing x with
  | leaf s => simp only [treeAt] at *; rw [← nodeAt_congr h]; exact ht
  | node l r ihl ihr =>
    obtain ⟨hl, hr, h1, h2, h3⟩ := ht
    exact ⟨hl, hr, by rw [← nodeAt_congr h]; exact h1, ihl _ h2, ihr _ h3⟩

theorem outBytes_succ (b : Block cw) (n : Nat) : outBytes b (n + 1) = outBytes b n ++ [outAt b n] := by
  simp [outBytes, List.range_succ]

theorem outBytes_congr {b c : Block cw} (n : Nat) (h : ∀ i, i < n → outAt b i = outAt c i) :
    outBytes b n = outBytes c n :=
  List.map_congr_left fun i hi => h i (by simpa using hi)

/-! ### One symbol -/

/-- `c'` is the block after the run `b` has gone on from `c` through one codeword to the symbol `x`,
one step per bit. -/
structure Emitted (P : Params) (b c c' : Block P.cw) (x : Byte) : Prop where
  runOf : RunOf P b c'
  steps : runEngine P (bitpos c' - bitpos c) c = .next c'
  bitpos_lt : bitpos c < bitpos c'
  emitted : c'.emitted.toNat = c.emitted.toNat + 1
  cur : c'.cur = b.root
  state : c'.runState = if c.emitted + 1 = c.symcount then .done else .run
  out : outBytes c' (c.emitted.toNat + 1) = outBytes c c.emitted.toNat ++ [x]

/-- One step of a run with a bit left, at a valid entry: a landing on the child the bit selects. -/
theorem RunOf.step_land {b c : Block P.cw} (hb : Startable P b) (h : RunOf P b c)
    (hr : c.runState = .run) {e : NodeEntry} (hn : nodeAt b c.cur = some e)
    (hp : bitpos c < 8 * b.paylen.toNat) :
    engineStep P c = land P (childOf (dirOf (streamBitAt b (bitpos c))) c.cur e) c := by
  have hlt : c.bytepos.toNat < c.paylen.toNat := by
    rw [h.paylen]; unfold bitpos at hp; omega
  have e1 : streamBitAt b (bitpos c) = streamBit (payAt c c.bytepos.toNat) c.bitidx := by
    rw [← streamBitAt_bitpos]; unfold streamBitAt; rw [payAt_congr h.pay.symm h.epoch.symm]
  rw [engineStep_of_run hr, fetchTest_of_valid hlt (by rw [nodeAt_congr h.node]; exact hn), e1]
  exact if_pos (lt_of_lt_of_le hlt (by rw [h.paylen]; exact hb.2.2.2))

/-- A step that lands on a leaf emits its symbol. -/
theorem Emitted.of_leaf {b c : Block P.cw} (hb : Startable P b) (h : RunOf P b c)
    (hr : c.runState = .run) {e : NodeEntry} (hn : nodeAt b c.cur = some e)
    (hp : bitpos c < 8 * b.paylen.toNat) {x : Byte}
    (hx : nodeAt b (childOf (dirOf (streamBitAt b (bitpos c))) c.cur e) = some (.leaf x)) :
    ∃ c', Emitted P b c c' x ∧ bitpos c' = bitpos c + 1 := by
  have hlt := h.emitted_lt hr
  have ho : c.emitted.toNat < P.outCap := lt_of_lt_of_le hlt (by rw [h.symcount]; exact hb.2.2.1)
  have hs := h.step_land hb hr hn hp
  rw [land_of_leaf (by rw [nodeAt_congr h.node]; exact hx), emit_advancePc hr ho] at hs
  obtain ⟨c', hs', hR, hc⟩ := h.step hb hr
  rw [hs] at hs'
  have e' := Host.Outcome.next.inj hs'
  have hbp : bitpos c' = bitpos c + 1 := by
    rcases hc with ⟨he, -⟩ | ⟨-, -, hbp⟩
    · rw [← e'] at he; dsimp only at he; split at he <;> cases he
    · exact hbp
  rw [e'] at hs
  refine ⟨c', ⟨hR, ?_, by omega, ?_, ?_, ?_, ?_⟩, hbp⟩
  · rw [hbp, Nat.add_sub_cancel_left]; exact (runEngine_succ_next hs).trans rfl
  · rw [← e']; exact toNat_succ_of_lt hlt
  · rw [← e']; exact h.root
  · rw [← e']
  · rw [outBytes_succ, ← e']
    congr 1
    · apply outBytes_congr
      intro i hi
      simp only [outAt]; rw [Memory.read_write_other _ _ (by omega)]
    · simp only [outAt]; rw [Memory.read_write_same]; rfl

/-- The walk through one codeword, from an internal node whose subtree is `.node l r`: it emits the
symbol `walk` finds, or runs out of bits and raises TRUNC. -/
theorem RunOf.walk {b : Block P.cw} (hb : Startable P b) (S : Tree) : ∀ (l r : Tree) (c : Block P.cw),
    S = .node l r → RunOf P b c → c.runState = .run → treeAt b c.cur S →
    (∀ x rest, Machine.walk S (bitsFrom b (bitpos c)) = some (x, rest) →
      ∃ c', Emitted P b c c' x ∧ rest = bitsFrom b (bitpos c')) ∧
    (Machine.walk S (bitsFrom b (bitpos c)) = none →
      ∃ j c', j + bitpos c ≤ 8 * b.paylen.toNat + 1 ∧ runEngine P j c = .next c' ∧
        c'.runState = .error ∧ c'.err = .trunc) := by
  induction S with
  | leaf s => intro l r c e; cases e
  | node l r ihl ihr =>
    intro l' r' c _ h hr ht
    obtain ⟨xl, xr, hn, hl, hr'⟩ := ht
    rcases Nat.lt_or_ge (bitpos c) (8 * b.paylen.toNat) with hp | hp
    · have hs := h.step_land hb hr hn hp
      have hbits := bitsFrom_cons b hp
      -- what the child the bit selects gives
      have key : ∀ (S' : Tree) (y : Handle),
          childOf (dirOf (streamBitAt b (bitpos c))) c.cur (.internal xl xr) = y → treeAt b y S' →
          Machine.walk (.node l r) (bitsFrom b (bitpos c)) =
            Machine.walk S' (bitsFrom b (bitpos c + 1)) →
          (∀ l r c, S' = .node l r → RunOf P b c → c.runState = .run → treeAt b c.cur S' →
            (∀ x rest, Machine.walk S' (bitsFrom b (bitpos c)) = some (x, rest) →
              ∃ c', Emitted P b c c' x ∧ rest = bitsFrom b (bitpos c')) ∧
            (Machine.walk S' (bitsFrom b (bitpos c)) = none →
              ∃ j c', j + bitpos c ≤ 8 * b.paylen.toNat + 1 ∧ runEngine P j c = .next c' ∧
                c'.runState = .error ∧ c'.err = .trunc)) →
          (∀ x rest, Machine.walk (.node l r) (bitsFrom b (bitpos c)) = some (x, rest) →
            ∃ c', Emitted P b c c' x ∧ rest = bitsFrom b (bitpos c')) ∧
          (Machine.walk (.node l r) (bitsFrom b (bitpos c)) = none →
            ∃ j c', j + bitpos c ≤ 8 * b.paylen.toNat + 1 ∧ runEngine P j c = .next c' ∧
              c'.runState = .error ∧ c'.err = .trunc) := by
        intro S' y hy hS' hw ih
        rw [hw]
        cases S' with
        | leaf s =>
          refine ⟨?_, fun e => by simp [Machine.walk] at e⟩
          intro x rest e
          simp only [Machine.walk, Option.some.injEq, Prod.mk.injEq] at e
          obtain ⟨rfl, rfl⟩ := e
          obtain ⟨c', hE, hbp⟩ := Emitted.of_leaf hb h hr hn hp (x := s) (by rw [hy]; exact hS')
          exact ⟨c', hE, by rw [hbp]⟩
        | node l1 r1 =>
          obtain ⟨y1, y2, hyn, hy1, hy2⟩ := hS'
          rw [hy, land_of_internal (by rw [nodeAt_congr h.node]; exact hyn)] at hs
          obtain ⟨d, hd, hR, -⟩ := h.step hb hr
          rw [hs] at hd
          have e' := Host.Outcome.next.inj hd
          have hbp : bitpos d = bitpos c + 1 := by
            rw [← e']
            exact bitpos_advancePc c (by
              have := c.paylen.isLt; rw [h.paylen] at this; unfold bitpos at hp; omega)
          have hcur : d.cur = y := by rw [← e']
          have hem : d.emitted = c.emitted := by rw [← e']; simp
          have hsy : d.symcount = c.symcount := by rw [← e']; simp
          have hout : ∀ i, outAt d i = outAt c i := fun i => by rw [← e']; simp [outAt]
          rw [e'] at hs
          obtain ⟨h1, h2⟩ := ih l1 r1 d rfl hR (by rw [← e']; simpa using hr)
            (by rw [hcur]; exact ⟨y1, y2, hyn, hy1, hy2⟩)
          rw [hbp] at h1 h2
          constructor
          · intro x rest e
            obtain ⟨c', hE, hrest⟩ := h1 x rest e
            have hlt := hE.bitpos_lt
            have hst := hE.steps
            refine ⟨c', ⟨hE.runOf, ?_, by omega, by rw [← hem]; exact hE.emitted, hE.cur,
              by rw [← hem, ← hsy]; exact hE.state, ?_⟩, hrest⟩
            · rw [show bitpos c' - bitpos c = (bitpos c' - bitpos d) + 1 by omega,
                runEngine_succ_next hs]
              exact hst
            · rw [← hem, hE.out, outBytes_congr _ fun i _ => hout i]
          · intro e
            obtain ⟨j, c', hj, hc', he⟩ := h2 e
            exact ⟨j + 1, c', by omega, by rw [runEngine_succ_next hs]; exact hc', he⟩
      cases hv : streamBitAt b (bitpos c) with
      | false =>
        exact key l xl (by rw [hv]; rfl) hl (by rw [hbits, hv]; rfl) ihl
      | true =>
        exact key r xr (by rw [hv]; rfl) hr' (by rw [hbits, hv]; rfl) ihr
    · rw [bitsFrom_nil b hp]
      refine ⟨fun x rest e => (by cases e), fun _ => ?_⟩
      have hle := h.bytepos_le
      have hle' := h.bitpos_le
      have hpe : c.bytepos = c.paylen := BitVec.eq_of_toNat_eq (by
        have := c.bitidx.isLt; rw [← h.paylen] at hp hle'; unfold bitpos at hp; omega)
      rw [← h.paylen] at hle'
      refine ⟨1, raiseError .trunc c, by rw [← h.paylen]; omega, ?_, rfl, rfl⟩
      rw [runEngine_succ_next (b' := raiseError .trunc c)]
      · rfl
      · rw [engineStep_of_run hr, fetchTest_of_exhausted (by rw [hpe])]

/-- One symbol from the root: as `decodeSymbol` finds it, or TRUNC. -/
theorem RunOf.symbol {b c : Block P.cw} (hb : Startable P b) {T : Tree} (hT : treeAt b b.root T)
    (h : RunOf P b c) (hr : c.runState = .run) (hc : c.cur = b.root) :
    (∀ x rest, decodeSymbol T (bitsFrom b (bitpos c)) = some (x, rest) →
      ∃ c', Emitted P b c c' x ∧ rest = bitsFrom b (bitpos c')) ∧
    (decodeSymbol T (bitsFrom b (bitpos c)) = none →
      ∃ j c', j + bitpos c ≤ 8 * b.paylen.toNat + 1 ∧ runEngine P j c = .next c' ∧
        c'.runState = .error ∧ c'.err = .trunc) := by
  cases T with
  | node l r => exact RunOf.walk hb (.node l r) l r c rfl h hr (by rw [hc]; exact hT)
  | leaf s =>
    rcases Nat.lt_or_ge (bitpos c) (8 * b.paylen.toNat) with hp | hp
    · rw [bitsFrom_cons b hp]
      refine ⟨?_, fun e => by cases e⟩
      intro x rest e
      simp only [decodeSymbol, Option.some.injEq, Prod.mk.injEq] at e
      obtain ⟨rfl, rfl⟩ := e
      have hn : nodeAt b c.cur = some (.leaf s) := by rw [hc]; exact hT
      obtain ⟨c', hE, hbp⟩ := Emitted.of_leaf hb h hr hn hp (x := s) hn
      exact ⟨c', hE, by rw [hbp]⟩
    · rw [bitsFrom_nil b hp]
      refine ⟨fun x rest e => (by cases e), fun _ => ?_⟩
      have hle' := h.bitpos_le
      have hpe : c.bytepos = c.paylen := BitVec.eq_of_toNat_eq (by
        have := c.bitidx.isLt
        have := h.bytepos_le
        rw [← h.paylen] at hp; unfold bitpos at hp; omega)
      refine ⟨1, raiseError .trunc c, by omega, ?_, rfl, rfl⟩
      rw [runEngine_succ_next (b' := raiseError .trunc c)]
      · rfl
      · rw [engineStep_of_run hr, fetchTest_of_exhausted (by rw [hpe])]

/-! ### `dec`, with the bits it leaves -/

/-- `dec` (R121) with the bits left over. -/
def decRest (T : Tree) : Nat → List Bool → Option (List Byte × List Bool)
  | 0, bits => some ([], bits)
  | n + 1, bits =>
    match decodeSymbol T bits with
    | none => none
    | some (x, rest) => (decRest T n rest).map fun p => (x :: p.1, p.2)

theorem dec_eq_decRest (T : Tree) (n : Nat) (bits : List Bool) :
    dec T n bits = (decRest T n bits).map Prod.fst := by
  induction n generalizing bits with
  | zero => rfl
  | succ n ih =>
    simp only [dec, decRest]
    cases decodeSymbol T bits with
    | none => rfl
    | some p => simp only [ih]; cases decRest T n p.2 <;> rfl

theorem walk_append (S : Tree) (w rest : List Bool) (x : Byte) (h : walk S w = some (x, [])) :
    walk S (w ++ rest) = some (x, rest) := by
  induction S generalizing w with
  | leaf s => cases w <;> simp_all [walk]
  | node l r ihl ihr =>
    cases w with
    | nil => simp [walk] at h
    | cons b w => cases b; exacts [ihl w h, ihr w h]

/-- A codeword is decoded to its symbol, whatever follows it (R87). -/
theorem decodeSymbol_codeword (T : Tree) (w rest : List Bool) (x : Byte) (h : IsCodeword T w x) :
    decodeSymbol T (w ++ rest) = some (x, rest) := by
  cases T with
  | leaf s =>
    obtain ⟨h1, rfl⟩ := h
    match w, h1 with
    | [b], _ => rfl
  | node l r => exact walk_append _ _ _ _ h

/-- Codewords one after the other are decoded to their symbols, whatever follows them. -/
theorem decRest_codewords (T : Tree) (ws : List (List Bool × Byte)) (rest : List Bool)
    (h : ∀ w ∈ ws, IsCodeword T w.1 w.2) :
    decRest T ws.length ((ws.map Prod.fst).flatten ++ rest) = some (ws.map Prod.snd, rest) := by
  induction ws with
  | nil => rfl
  | cons a ws ih =>
    simp only [List.length_cons, List.map_cons, List.flatten_cons, List.append_assoc, decRest]
    rw [decodeSymbol_codeword T a.1 _ a.2 (h a List.mem_cons_self)]
    simp only
    rw [ih fun w hw => h w (List.mem_cons_of_mem _ hw)]; rfl

/-! ### A whole run -/

/-- From the root, with `n` symbols to go: the run emits what `decRest` gives, one step per bit, and
stops with DONE at the bit after the last codeword; or it raises TRUNC. -/
theorem RunOf.decodes {b : Block P.cw} (hb : Startable P b) {T : Tree} (hT : treeAt b b.root T)
    (n : Nat) : ∀ c : Block P.cw, RunOf P b c → c.runState = .run → c.cur = b.root →
      c.symcount.toNat = c.emitted.toNat + n →
      (∀ xs rest, decRest T n (bitsFrom b (bitpos c)) = some (xs, rest) →
        ∃ c', RunOf P b c' ∧ runEngine P (bitpos c' - bitpos c) c = .next c' ∧
          bitpos c ≤ bitpos c' ∧ rest = bitsFrom b (bitpos c') ∧ c'.runState = .done ∧
          c'.emitted = c'.symcount ∧ c'.cur = c'.root ∧
          outBytes c' c.symcount.toNat = outBytes c c.emitted.toNat ++ xs) ∧
      (decRest T n (bitsFrom b (bitpos c)) = none →
        ∃ j c', j + bitpos c ≤ 8 * b.paylen.toNat + 1 ∧ runEngine P j c = .next c' ∧
          c'.runState = .error ∧ c'.err = .trunc) := by
  induction n with
  | zero =>
    intro c h hr _ hn
    have := h.emitted_lt hr
    omega
  | succ n ih =>
    intro c h hr hc hn
    obtain ⟨h1, h2⟩ := h.symbol hb hT hr hc
    have hlt := h.emitted_lt hr
    simp only [decRest]
    cases hd : decodeSymbol T (bitsFrom b (bitpos c)) with
    | none => exact ⟨fun xs rest e => (by cases e), fun _ => h2 hd⟩
    | some p =>
      obtain ⟨x, rest1⟩ := p
      obtain ⟨d, hE, rfl⟩ := h1 x rest1 hd
      have hlt' := hE.bitpos_lt
      have hsy : d.symcount = c.symcount := by rw [hE.runOf.symcount, h.symcount]
      have hlast : c.emitted + 1 = c.symcount ↔ n = 0 := by
        constructor
        · intro e; rw [← e, toNat_succ_of_lt hlt] at hn; omega
        · intro e; exact BitVec.eq_of_toNat_eq (by rw [toNat_succ_of_lt hlt]; omega)
      by_cases h0 : n = 0
      · subst h0
        have hst : d.runState = .done := by rw [hE.state, if_pos (hlast.mpr rfl)]
        simp only [decRest, Option.map_some]
        refine ⟨?_, fun e => by cases e⟩
        intro xs rest e
        simp only [Option.some.injEq, Prod.mk.injEq] at e
        obtain ⟨rfl, rfl⟩ := e
        refine ⟨d, hE.runOf, hE.steps, by omega, rfl, hst, ?_, ?_, ?_⟩
        · exact BitVec.eq_of_toNat_eq (by rw [hE.emitted, hsy, hn])
        · rw [hE.cur, hE.runOf.root]
        · rw [hn]; exact hE.out
      · have hst : d.runState = .run := by rw [hE.state, if_neg (fun e => h0 (hlast.mp e))]
        obtain ⟨g1, g2⟩ := ih d hE.runOf hst hE.cur (by rw [hsy, hE.emitted]; omega)
        constructor
        · intro xs rest e
          obtain ⟨⟨ys, rest'⟩, hys, he⟩ := Option.map_eq_some_iff.mp e
          simp only [Prod.mk.injEq] at he
          obtain ⟨rfl, rfl⟩ := he
          obtain ⟨c', k1, k2, k3, k4, k5, k6, k7, k8⟩ := g1 ys rest' hys
          refine ⟨c', k1, ?_, by omega, k4, k5, k6, k7, ?_⟩
          · rw [show bitpos c' - bitpos c = (bitpos d - bitpos c) + (bitpos c' - bitpos d) by omega,
              runEngine_add hE.steps]
            exact k2
          · rw [← hsy, k8, hE.emitted, hE.out]; simp
        · intro e
          have e' : decRest T n (bitsFrom b (bitpos d)) = none := by
            simpa using e
          obtain ⟨j, c', k1, k2, k3⟩ := g2 e'
          refine ⟨(bitpos d - bitpos c) + j, c', by omega, ?_, k3⟩
          rw [runEngine_add hE.steps]; exact k2

end Sys2Proof.Machine
end

