-- ==== Sys2Proof/Laws/Codec.lean ====
section
/-! SUPPORT. The environment's codec: the arena as a forest of trees (R154 to R156), the code table as
the paths of a tree (R158), the header as numbers (R92), and the loading of the block (R165). -/

namespace Sys2Proof.Machine.Codec

open Sys2Proof Sys2Proof.Machine

/-! ### The arena holds trees -/

/-- The tree that hangs at a handle of the arena. -/
def arenaTree (arena : Arena) : Nat → Tree → Prop
  | h, .leaf s => kindAt arena h = some (.leaf s)
  | h, .node l r =>
    ∃ a c, kindAt arena h = some (.internal a c) ∧ arenaTree arena a l ∧ arenaTree arena c r

/-- The number of edges on the longest path. -/
def height : Tree → Nat
  | .leaf _ => 0
  | .node l r => max (height l) (height r) + 1

/-- The symbols of the leaves, left to right. -/
def leaves : Tree → List Byte
  | .leaf s => [s]
  | .node l r => leaves l ++ leaves r

/-- The parent field at a handle. -/
def parentAt (arena : Arena) (h : Nat) : Option (Option Nat) := (arena[h]?).map TreeNode.parent

/-- Whether a node of the arena is a leaf. -/
def isLeafNode (n : TreeNode) : Bool :=
  match n.kind with
  | .leaf _ => true
  | .internal _ _ => false

theorem leaves_pos (T : Tree) : 0 < (leaves T).length := by
  induction T with
  | leaf s => simp [leaves]
  | node l r ihl ihr => simp [leaves]; omega

/-- A tree with `n` leaves has depth at most `n - 1` (R95). -/
theorem height_lt_leaves (T : Tree) : height T < (leaves T).length := by
  induction T with
  | leaf s => simp [leaves, height]
  | node l r ihl ihr =>
    have := leaves_pos l
    have := leaves_pos r
    simp only [leaves, height, List.length_append]; omega

theorem kindAt_lt {arena : Arena} {h : Nat} {k : NodeKind} (e : kindAt arena h = some k) :
    h < arena.length := by
  unfold kindAt at e
  by_contra hc
  rw [List.getElem?_eq_none (by omega)] at e; cases e

theorem arenaTree_lt {arena : Arena} {h : Nat} {T : Tree} (e : arenaTree arena h T) :
    h < arena.length := by
  cases T with
  | leaf s => exact kindAt_lt e
  | node l r => obtain ⟨a, c, e, -⟩ := e; exact kindAt_lt e

/-- A tree stays where it is when the arena grows and keeps its kinds. -/
theorem arenaTree_mono {arena arena' : Arena}
    (hk : ∀ h, h < arena.length → kindAt arena' h = kindAt arena h) (T : Tree) (h : Nat)
    (e : arenaTree arena h T) : arenaTree arena' h T := by
  induction T generalizing h with
  | leaf s => simp only [arenaTree] at *; rw [hk _ (kindAt_lt e)]; exact e
  | node l r ihl ihr =>
    obtain ⟨a, c, h1, h2, h3⟩ := e
    exact ⟨a, c, by rw [hk _ (kindAt_lt h1)]; exact h1, ihl _ h2, ihr _ h3⟩

/-! ### `setParent` and `mergePair`, by what reads of the arena give -/

theorem setParent_length (arena : Arena) (h k : Nat) :
    (setParent arena h k).length = arena.length := by simp [setParent]

theorem setParent_get (arena : Arena) (h k i : Nat) :
    (setParent arena h k)[i]? =
      if i = h then (arena[i]?).map (fun n => { n with parent := some k }) else arena[i]? := by
  unfold setParent
  rw [List.getElem?_modify]
  split
  · rename_i e; subst e; simp
  · rename_i e; rw [if_neg (fun h => e h.symm)]; simp

theorem setParent_kind (arena : Arena) (h k i : Nat) :
    kindAt (setParent arena h k) i = kindAt arena i := by
  unfold kindAt
  rw [setParent_get]
  split
  · simp [Function.comp_def]
  · rfl

theorem setParent_parent (arena : Arena) (h k : Nat) {i : Nat} (hi : i < arena.length) :
    parentAt (setParent arena h k) i = if i = h then some (some k) else parentAt arena i := by
  unfold parentAt
  rw [setParent_get]
  split
  · simp [hi]
  · rfl

theorem setParent_leafCount (arena : Arena) (h k : Nat) :
    ((setParent arena h k).filter isLeafNode).length = (arena.filter isLeafNode).length := by
  unfold setParent
  induction arena generalizing h with
  | nil => simp
  | cons n arena ih =>
    cases h with
    | zero =>
      have : isLeafNode { n with parent := some k } = isLeafNode n := rfl
      simp only [List.modify_zero_cons, List.filter_cons, this]
      split <;> simp
    | succ h =>
      simp only [List.modify_succ_cons, List.filter_cons]
      split <;> simp [ih]

section
variable {arena : Arena} {a c : Nat}

theorem mergePair_length : (mergePair arena a c).length = arena.length + 1 := by
  simp [mergePair, setParent_length]

theorem mergePair_get_old {h : Nat} (hh : h < arena.length) :
    (mergePair arena a c)[h]? = (setParent (setParent arena a arena.length) c arena.length)[h]? := by
  unfold mergePair
  exact List.getElem?_append_left (by simpa [setParent_length] using hh)

theorem mergePair_kind_old (h : Nat) (hh : h < arena.length) :
    kindAt (mergePair arena a c) h = kindAt arena h := by
  have e : kindAt (setParent (setParent arena a arena.length) c arena.length) h = kindAt arena h := by
    rw [setParent_kind, setParent_kind]
  rw [← e]
  unfold kindAt
  rw [mergePair_get_old hh]

theorem mergePair_kind_new : kindAt (mergePair arena a c) arena.length = some (.internal a c) := by
  unfold kindAt mergePair
  simp only
  rw [List.getElem?_append_right (by simp [setParent_length])]
  simp [setParent_length]

theorem mergePair_parent_old {h : Nat} (hh : h < arena.length) :
    parentAt (mergePair arena a c) h =
      if h = c then some (some arena.length)
      else if h = a then some (some arena.length) else parentAt arena h := by
  have h1 := setParent_parent arena a arena.length hh
  have h2 := setParent_parent (setParent arena a arena.length) c arena.length (i := h)
    (by simpa [setParent_length] using hh)
  rw [h1] at h2
  rw [← h2]
  unfold parentAt
  rw [mergePair_get_old hh]

theorem mergePair_parent_new : parentAt (mergePair arena a c) arena.length = some none := by
  unfold parentAt mergePair
  simp only
  rw [List.getElem?_append_right (by simp [setParent_length])]
  simp [setParent_length]

/-- A merge takes its two handles off the unmerged ones and adds the new one at the end. -/
theorem mergePair_unmerged :
    unmerged (mergePair arena a c) =
      (unmerged arena).filter (fun h => h ≠ c ∧ h ≠ a) ++ [arena.length] := by
  unfold unmerged
  rw [mergePair_length, List.range_succ, List.filter_append, List.filter_filter]
  congr 1
  · apply List.filter_congr
    intro h hh
    have := mergePair_parent_old (a := a) (c := c) (show h < arena.length by simpa using hh)
    unfold parentAt at this
    rw [this]
    by_cases h1 : h = c
    · simp [h1]
    · by_cases h2 : h = a
      · simp [h2]
      · simp [h1, h2]
  · have := mergePair_parent_new (arena := arena) (a := a) (c := c)
    unfold parentAt at this
    rw [List.filter_cons, if_pos (by rw [this]; rfl)]; rfl

theorem mergePair_leafCount :
    ((mergePair arena a c).filter isLeafNode).length = (arena.filter isLeafNode).length := by
  unfold mergePair
  simp only [List.filter_append, List.length_append, setParent_leafCount]
  simp [isLeafNode]

end

/-! ### The unmerged handles and the selection -/

theorem unmerged_nodup (arena : Arena) : (unmerged arena).Nodup :=
  List.Nodup.filter _ List.nodup_range

theorem unmerged_lt {arena : Arena} {h : Nat} (e : h ∈ unmerged arena) : h < arena.length := by
  unfold unmerged at e; simp only [List.mem_filter, List.mem_range] at e; exact e.1

theorem pickLeast_mem {arena : Arena} {U : List Nat} {a : Nat} (h : pickLeast arena U = some a) :
    a ∈ U := by
  induction U generalizing a with
  | nil => cases h
  | cons x U ih =>
    simp only [pickLeast] at h
    split at h
    · cases h; exact List.mem_cons_self
    · rename_i k hk
      split at h
      · cases h; exact List.mem_cons_of_mem _ (ih hk)
      · cases h; exact List.mem_cons_self

theorem pickLeast_none {arena : Arena} {U : List Nat} (h : pickLeast arena U = none) : U = [] := by
  cases U with
  | nil => rfl
  | cons x U => simp only [pickLeast] at h; split at h <;> cases h

/-- Two selected handles and the rest are the whole list. -/
theorem perm_two_selected {U : List Nat} (hU : U.Nodup) {a c : Nat} (ha : a ∈ U)
    (hc : c ∈ U.erase a) : U.Perm (a :: c :: U.filter (fun h => h ≠ c ∧ h ≠ a)) := by
  have h2 := List.perm_cons_erase hc
  have e : (U.erase a).erase c = U.filter (fun h => h ≠ c ∧ h ≠ a) := by
    rw [(hU.erase a).erase_eq_filter, hU.erase_eq_filter, List.filter_filter]
    apply List.filter_congr
    intro x _
    simp [bne]
    by_cases x = c <;> by_cases x = a <;> simp_all
  rw [e] at h2
  exact (List.perm_cons_erase ha).trans (h2.cons a)

/-! ### The loop of R155 keeps a forest -/

/-- The invariant of the loop: a tree at every handle, no higher than its handle; the unmerged trees
hold exactly the symbols `syms`; entries and unmerged ones add up to `2n`; the last entry is unmerged. -/
structure Forest (n : Nat) (syms : List Byte) (arena : Arena) (f : Nat → Tree) : Prop where
  trees : ∀ h, h < arena.length → arenaTree arena h (f h)
  heights : ∀ h, h < arena.length → height (f h) ≤ h
  perm : ((unmerged arena).flatMap fun h => leaves (f h)).Perm syms
  count : arena.length + (unmerged arena).length = 2 * n
  last : (unmerged arena).getLast? = some (arena.length - 1)
  leafCount : (arena.filter isLeafNode).length = n

theorem Forest.merge {n : Nat} {syms : List Byte} {arena arena' : Arena} {f : Nat → Tree}
    (hF : Forest n syms arena f) (h : mergeStep arena = some arena') :
    ∃ f', Forest n syms arena' f' ∧ (unmerged arena').length + 1 = (unmerged arena).length := by
  unfold mergeStep at h
  split at h
  · cases h
  rename_i a ha
  split at h
  · cases h
  rename_i c hc
  cases h
  have ha' := pickLeast_mem ha
  have hc' := pickLeast_mem hc
  have hla := unmerged_lt ha'
  have hlc := unmerged_lt (List.mem_of_mem_erase hc')
  have hp := perm_two_selected (unmerged_nodup arena) ha' hc'
  have hlen : (unmerged (mergePair arena a c)).length + 1 = (unmerged arena).length := by
    rw [mergePair_unmerged]; have := hp.length_eq; simp at this ⊢; omega
  let f' : Nat → Tree := fun h => if h = arena.length then .node (f a) (f c) else f h
  have hne : ∀ {h}, h < arena.length → f' h = f h := fun {h} hh => if_neg (by omega)
  have hmono : ∀ h, h < arena.length → arenaTree (mergePair arena a c) h (f h) := fun h hh =>
    arenaTree_mono mergePair_kind_old _ _ (hF.trees h hh)
  refine ⟨f', ⟨?_, ?_, ?_, ?_, ?_, ?_⟩, hlen⟩
  · intro h hh
    rw [mergePair_length] at hh
    by_cases e : h = arena.length
    · subst e
      simp only [f', if_true]
      exact ⟨a, c, mergePair_kind_new, hmono a hla, hmono c hlc⟩
    · rw [hne (by omega)]; exact hmono h (by omega)
  · intro h hh
    rw [mergePair_length] at hh
    by_cases e : h = arena.length
    · subst e
      simp only [f', if_true, height]
      have := hF.heights a hla
      have := hF.heights c hlc
      omega
    · rw [hne (by omega)]; exact hF.heights h (by omega)
  · rw [mergePair_unmerged, List.flatMap_append]
    have e1 : ((unmerged arena).filter (fun h => h ≠ c ∧ h ≠ a)).flatMap (fun h => leaves (f' h)) =
        ((unmerged arena).filter (fun h => h ≠ c ∧ h ≠ a)).flatMap (fun h => leaves (f h)) := by
      apply List.flatMap_congr
      intro h hh
      rw [hne (unmerged_lt (List.mem_of_mem_filter hh))]
    have e2 : [arena.length].flatMap (fun h => leaves (f' h)) = leaves (f a) ++ leaves (f c) := by
      simp [f', leaves]
    rw [e1, e2]
    have h3 := (hp.flatMap_right (fun h => leaves (f h))).symm.trans hF.perm
    simp only [List.flatMap_cons] at h3
    refine List.Perm.trans ?_ h3
    rw [← List.append_assoc (leaves (f a))]
    exact List.perm_append_comm
  · rw [mergePair_length]; have := hF.count; omega
  · rw [mergePair_unmerged, mergePair_length]; simp
  · rw [mergePair_leafCount]; exact hF.leafCount

theorem mergeStep_some {arena : Arena} (h : 2 ≤ (unmerged arena).length) :
    ∃ a', mergeStep arena = some a' := by
  unfold mergeStep
  cases h1 : pickLeast arena (unmerged arena) with
  | none => rw [pickLeast_none h1] at h; simp at h
  | some a =>
    simp only
    cases h2 : pickLeast arena ((unmerged arena).erase a) with
    | none =>
      have := List.length_erase_of_mem (pickLeast_mem h1)
      rw [pickLeast_none h2] at this; simp at this; omega
    | some c => exact ⟨_, rfl⟩

theorem mergeStep_none {arena : Arena} (h : (unmerged arena).length = 1) :
    mergeStep arena = none := by
  unfold mergeStep
  cases h1 : pickLeast arena (unmerged arena) with
  | none => rfl
  | some a =>
    simp only
    cases h2 : pickLeast arena ((unmerged arena).erase a) with
    | none => rfl
    | some c =>
      have h3 := List.length_erase_of_mem (pickLeast_mem h1)
      have := List.length_pos_of_mem (pickLeast_mem h2)
      omega

theorem Forest.mergeAll {n : Nat} {syms : List Byte} (fuel : Nat) (arena : Arena) {f : Nat → Tree}
    (hF : Forest n syms arena f) (h : (unmerged arena).length ≤ fuel + 1)
    (h1 : 1 ≤ (unmerged arena).length) :
    ∃ f', Forest n syms (mergeAll fuel arena) f' ∧ (unmerged (Codec.mergeAll fuel arena)).length = 1 := by
  induction fuel generalizing arena f with
  | zero => exact ⟨f, hF, by simp only [Codec.mergeAll]; omega⟩
  | succ k ih =>
    by_cases h2 : (unmerged arena).length = 1
    · simp only [Codec.mergeAll, mergeStep_none h2]; exact ⟨f, hF, h2⟩
    · obtain ⟨a', ha'⟩ := mergeStep_some (arena := arena) (by omega)
      obtain ⟨f', hF', hl⟩ := hF.merge ha'
      simp only [Codec.mergeAll, ha']
      exact ih a' hF' (by omega) (by omega)

/-! ### Seeding -/

/-- The byte values with a non-zero frequency, ascending. -/
def present (t : FreqTable) : List Byte :=
  ((byteValues.zip t).filter (fun p => p.2 ≠ 0)).map Prod.fst

theorem seed_eq (t : FreqTable) :
    seed t = ((byteValues.zip t).filter (fun p => p.2 ≠ 0)).map
      (fun p => { kind := .leaf p.1, freq := p.2, parent := none }) := by
  unfold seed
  generalize byteValues.zip t = z
  induction z with
  | nil => rfl
  | cons p z ih =>
    obtain ⟨b, x⟩ := p
    simp only [List.filterMap_cons, List.filter_cons]
    by_cases h : x = 0 <;> simp [h, ih]

theorem seed_length (t : FreqTable) : (seed t).length = (present t).length := by
  rw [seed_eq, present]; simp

theorem seed_kind (t : FreqTable) (h : Nat) :
    kindAt (seed t) h = ((present t)[h]?).map NodeKind.leaf := by
  rw [seed_eq, present]; simp [kindAt, Function.comp_def]

theorem seed_unmerged (t : FreqTable) : unmerged (seed t) = List.range (seed t).length := by
  unfold unmerged
  rw [List.filter_eq_self]
  intro h hh
  have hh : h < (seed t).length := by simpa using hh
  simp only [decide_eq_true_eq]
  rw [seed_eq] at hh ⊢
  simp only [List.length_map] at hh
  rw [List.getElem?_eq_getElem (by simpa using hh)]
  simp

theorem seed_forest (t : FreqTable) (hn : present t ≠ []) :
    Forest (present t).length (present t) (seed t) (fun h => .leaf ((present t).getD h 0)) := by
  have hl := seed_length t
  have hpos : 0 < (present t).length := List.length_pos_iff.mpr hn
  refine ⟨?_, ?_, ?_, ?_, ?_, ?_⟩
  · intro h hh
    simp only [arenaTree]
    rw [seed_kind]
    rw [hl] at hh
    simp [hh]
  · intro h hh; simp [height]
  · rw [seed_unmerged, hl]
    have : (List.range (present t).length).flatMap
        (fun h => leaves (.leaf ((present t).getD h 0))) = present t := by
      simp only [leaves]
      rw [← List.map_eq_flatMap]
      apply List.ext_getElem?
      intro i
      by_cases hi : i < (present t).length <;> simp [hi]
    rw [this]
  · rw [seed_unmerged, hl]; simp; omega
  · rw [seed_unmerged, hl]
    obtain ⟨m, hm⟩ : ∃ m, (present t).length = m + 1 := ⟨_, (Nat.succ_pred_eq_of_pos hpos).symm⟩
    rw [hm, List.range_succ]; simp
  · rw [seed_eq, List.filter_eq_self.mpr]
    · simp [present]
    · intro n hn; simp only [List.mem_map] at hn; obtain ⟨p, -, rfl⟩ := hn; rfl

/-! ### What `build` returns -/

/-- `build` has put the tree `T` at the root of `B`: its leaves hold exactly the symbols `syms`, and the
arena has the sizes of R156. -/
structure BuiltTree (syms : List Byte) (B : Built) (T : Tree) : Prop where
  tree : arenaTree B.arena B.root T
  height_le : height T ≤ B.root
  perm : (leaves T).Perm syms
  length : B.arena.length = 2 * syms.length - 1
  root : B.root = 2 * syms.length - 2
  leafCount : (B.arena.filter isLeafNode).length = syms.length

theorem build_of_present {t : FreqTable} (hn : present t ≠ []) :
    ∃ B T, build t = some B ∧ BuiltTree (present t) B T := by
  have hF := seed_forest t hn
  have hpos : 0 < (present t).length := List.length_pos_iff.mpr hn
  have hu : (unmerged (seed t)).length = (seed t).length := by rw [seed_unmerged]; simp
  have hl := seed_length t
  obtain ⟨f, hF', h1⟩ := hF.mergeAll (seed t).length (seed t) (by omega) (by omega)
  obtain ⟨root, hr⟩ := List.length_eq_one_iff.mp h1
  have hlast := hF'.last
  have hcount := hF'.count
  have hperm := hF'.perm
  rw [hr] at hlast hcount hperm
  simp at hlast hcount
  have hrl : root < (mergeAll (seed t).length (seed t)).length := by omega
  refine ⟨⟨mergeAll (seed t).length (seed t), root⟩, f root, ?_, hF'.trees root hrl,
    hF'.heights root hrl, by simpa using hperm, ?_, ?_, hF'.leafCount⟩
  · unfold build; simp only; rw [hr]
  · simp only; omega
  · simp only; omega

theorem build_of_absent {t : FreqTable} (hn : present t = []) : build t = none := by
  have h := seed_length t
  rw [hn] at h
  have h0 : seed t = [] := List.length_eq_zero_iff.mp h
  unfold build; rw [h0]; rfl

/-! ### Frequencies -/

theorem byteValues_nodup : byteValues.Nodup := by
  unfold byteValues
  apply List.Nodup.map_on _ List.nodup_range
  intro x hx y hy h
  have hx : x < 256 := by simpa using hx
  have hy : y < 256 := by simpa using hy
  have := congrArg BitVec.toNat h
  simp at this; omega

theorem mem_byteValues (b : Byte) : b ∈ byteValues := by
  unfold byteValues
  rw [List.mem_map]
  exact ⟨b.toNat, by have := b.isLt; simp; omega, by simp⟩

theorem present_length_le (t : FreqTable) : (present t).length ≤ 256 := by
  unfold present
  rw [List.length_map]
  refine (List.length_filter_le _ _).trans ?_
  rw [List.length_zip]
  simp [byteValues]

/-- The present values of an input are its bytes, each once. -/
theorem present_freq (X : List Byte) : present (freq X) = byteValues.filter (· ∈ X) := by
  have hz : ∀ (l : List Byte) (g : Byte → Nat), l.zip (l.map g) = l.map fun a => (a, g a) := by
    intro l g; induction l with
    | nil => rfl
    | cons a l ih => simp [ih]
  unfold present freq
  rw [hz, List.filter_map, List.map_map]
  have : (Prod.fst ∘ fun a => (a, List.count a X)) = (id : Byte → Byte) := rfl
  rw [this, List.map_id]
  apply List.filter_congr
  intro b _
  simp [List.count_eq_zero]

theorem present_perm_dedup (X : List Byte) : (present (freq X)).Perm X.dedup := by
  rw [present_freq, List.perm_ext_iff_of_nodup (byteValues_nodup.filter _) (List.nodup_dedup X)]
  intro b; simp [mem_byteValues]

theorem mem_present {X : List Byte} {x : Byte} (hx : x ∈ X) : x ∈ present (freq X) := by
  rw [present_freq]; simp [mem_byteValues, hx]

theorem present_ne_nil {X : List Byte} (hX : X ≠ []) : present (freq X) ≠ [] := by
  obtain ⟨x, hx⟩ := List.exists_mem_of_ne_nil X hX
  exact List.ne_nil_of_mem (mem_present hx)

theorem build_freq {X : List Byte} {B : Built} (h : build (freq X) = some B) :
    ∃ T, BuiltTree (present (freq X)) B T := by
  by_cases hn : present (freq X) = []
  · rw [build_of_absent hn] at h; cases h
  · obtain ⟨B', T, hB, hG⟩ := build_of_present hn
    rw [hB] at h; cases h; exact ⟨T, hG⟩

theorem freq_length (X : List Byte) : (freq X).length = 256 := by simp [freq, byteValues]

/-- The frequencies sum to the length (R152). -/
theorem freq_sum (X : List Byte) : (freq X).sum = X.length := by
  have ind : ∀ (l : List Byte), l.Nodup → ∀ x ∈ l, (l.map fun b => if x = b then 1 else 0).sum = 1 := by
    intro l hl x hx
    induction l with
    | nil => cases hx
    | cons a l ih =>
      obtain ⟨h1, h2⟩ := List.nodup_cons.mp hl
      by_cases e : x = a
      · subst e
        have : (l.map fun b => if x = b then 1 else 0).sum = 0 := by
          apply List.sum_eq_zero
          intro y hy
          obtain ⟨b, hb, rfl⟩ := List.mem_map.mp hy
          rw [if_neg]; rintro rfl; exact h1 hb
        simp [this]
      · simp [e, ih h2 (by simpa [e] using hx)]
  induction X with
  | nil => simp [freq]
  | cons x X ih =>
    have : freq (x :: X) = byteValues.map (fun b => X.count b + if x = b then 1 else 0) := by
      unfold freq; apply List.map_congr_left; intro b _; rw [List.count_cons]; simp
    rw [this, List.sum_map_add, ind _ byteValues_nodup _ (mem_byteValues x)]
    change (freq X).sum + 1 = _
    rw [ih]; rfl

/-! ### The code table -/

/-- The paths of a tree to its leaves, each after `acc`. -/
def treeCodes : Tree → List Bool → CodeTable
  | .leaf s, acc => [(s, acc)]
  | .node l r, acc => treeCodes l (acc ++ [false]) ++ treeCodes r (acc ++ [true])

theorem codesFrom_eq (arena : Arena) (T : Tree) (fuel h : Nat) (acc : List Bool)
    (hT : arenaTree arena h T) (hf : height T < fuel) :
    codesFrom arena fuel h acc = treeCodes T acc := by
  induction T generalizing fuel h acc with
  | leaf s =>
    obtain ⟨k, rfl⟩ : ∃ k, fuel = k + 1 := ⟨fuel - 1, by omega⟩
    simp only [arenaTree] at hT
    simp [codesFrom, hT, treeCodes]
  | node l r ihl ihr =>
    obtain ⟨k, rfl⟩ : ∃ k, fuel = k + 1 := ⟨fuel - 1, by omega⟩
    obtain ⟨a, c, h1, h2, h3⟩ := hT
    simp only [height] at hf
    simp only [codesFrom, h1, treeCodes]
    rw [ihl k a _ h2 (by omega), ihr k c _ h3 (by omega)]

/-- `codes` gives the paths of the built tree; a lone leaf has the code `0` (R158, R159). -/
theorem codes_eq {syms : List Byte} {B : Built} {T : Tree} (hG : BuiltTree syms B T) :
    codes B = match T with
      | .leaf s => [(s, [false])]
      | .node l r => treeCodes (.node l r) [] := by
  cases T with
  | leaf s =>
    have := hG.tree
    simp only [arenaTree] at this
    simp [codes, this]
  | node l r =>
    obtain ⟨a, c, h1, h2, h3⟩ := hG.tree
    have hlt := arenaTree_lt hG.tree
    simp only [codes, h1]
    exact codesFrom_eq _ _ _ _ _ hG.tree (lt_of_le_of_lt hG.height_le hlt)

theorem treeCodes_syms (T : Tree) (acc : List Bool) : (treeCodes T acc).map Prod.fst = leaves T := by
  induction T generalizing acc with
  | leaf s => rfl
  | node l r ihl ihr => simp [treeCodes, leaves, ihl, ihr]

/-- Every path, walked, leads to its symbol; it is no longer than the tree is high. -/
theorem treeCodes_walk (T : Tree) (acc : List Bool) (p : Byte × List Bool) (hp : p ∈ treeCodes T acc) :
    ∃ w, p.2 = acc ++ w ∧ walk T w = some (p.1, []) ∧ w.length ≤ height T := by
  induction T generalizing acc with
  | leaf s => simp [treeCodes] at hp; subst hp; exact ⟨[], by simp, rfl, by simp⟩
  | node l r ihl ihr =>
    simp only [treeCodes, List.mem_append] at hp
    rcases hp with hp | hp
    · obtain ⟨w, h1, h2, h3⟩ := ihl _ hp
      exact ⟨false :: w, by rw [h1]; simp, by simpa [walk] using h2,
        by simp only [List.length_cons, height]; omega⟩
    · obtain ⟨w, h1, h2, h3⟩ := ihr _ hp
      exact ⟨true :: w, by rw [h1]; simp, by simpa [walk] using h2,
        by simp only [List.length_cons, height]; omega⟩

/-- Every entry of the code table is a codeword of its byte value (R87, R158, R159). -/
theorem codes_codeword {syms : List Byte} {B : Built} {T : Tree} (hG : BuiltTree syms B T)
    {p : Byte × List Bool} (hp : p ∈ codes B) : IsCodeword T p.2 p.1 := by
  rw [codes_eq hG] at hp
  cases T with
  | leaf s => simp at hp; subst hp; exact ⟨rfl, rfl⟩
  | node l r =>
    obtain ⟨w, h1, h2, -⟩ := treeCodes_walk _ _ _ hp
    rw [List.nil_append] at h1
    rw [h1]; exact h2

/-- A present byte value has an entry. -/
theorem codeOf_mem {syms : List Byte} {B : Built} {T : Tree} (hG : BuiltTree syms B T) {x : Byte}
    (hx : x ∈ syms) : (x, codeOf (codes B) x) ∈ codes B := by
  have look : ∀ l : CodeTable, x ∈ l.map Prod.fst → (x, codeOf l x) ∈ l := by
    intro l
    induction l with
    | nil => intro h; cases h
    | cons p l ih =>
      obtain ⟨k, w⟩ := p
      intro h
      by_cases e : x = k
      · subst e; simp [codeOf, List.lookup]
      · have h' : x ∈ l.map Prod.fst := by simpa [e] using h
        have : codeOf ((k, w) :: l) x = codeOf l x := by
          simp [codeOf, List.lookup_cons, show (x == k) = false by simpa using e]
        rw [this]
        exact List.mem_cons_of_mem _ (ih h')
  apply look
  have hxT : x ∈ leaves T := hG.perm.mem_iff.mpr hx
  rw [codes_eq hG]
  cases T with
  | leaf s => simpa [leaves] using hxT
  | node l r => rw [treeCodes_syms]; exact hxT

theorem encodeBits_eq (ct : CodeTable) (X : List Byte) :
    encodeBits ct X = ((X.map fun x => (codeOf ct x, x)).map Prod.fst).flatten := by
  simp [encodeBits, List.flatMap, Function.comp_def]

/-- The encoded bits are codewords one after the other. -/
theorem codewords_of_input {X : List Byte} {B : Built} {T : Tree}
    (hG : BuiltTree (present (freq X)) B T) :
    ∀ w ∈ X.map (fun x => (codeOf (codes B) x, x)), IsCodeword T w.1 w.2 := by
  intro w hw
  obtain ⟨x, hx, rfl⟩ := List.mem_map.mp hw
  exact codes_codeword hG (codeOf_mem hG (mem_present hx))

theorem codeword_pos {T : Tree} {w : List Bool} {x : Byte} (h : IsCodeword T w x) : 0 < w.length := by
  cases T with
  | leaf s => obtain ⟨h, -⟩ := h; omega
  | node l r =>
    cases w with
    | nil => cases h
    | cons => simp

/-! ### The header -/

theorem valueLE_bytes (k n : Nat) :
    valueLE ((List.range k).map fun j => BitVec.ofNat 8 (n / 256 ^ j)) = n % 256 ^ k := by
  induction k generalizing n with
  | zero => simp [valueLE, Nat.mod_one]
  | succ k ih =>
    rw [List.range_succ_eq_map, List.map_cons, List.map_map]
    have : (List.range k).map ((fun j => BitVec.ofNat 8 (n / 256 ^ j)) ∘ Nat.succ) =
        (List.range k).map fun j => BitVec.ofNat 8 (n / 256 / 256 ^ j) := by
      apply List.map_congr_left
      intro j _
      simp only [Function.comp, Nat.succ_eq_add_one, pow_succ, Nat.div_div_eq_div_mul]
      rw [Nat.mul_comm (256 ^ j)]
    simp only [valueLE]
    rw [this, ih]
    simp only [pow_zero, Nat.div_one, BitVec.toNat_ofNat]
    rw [show (2 : Nat) ^ 8 = 256 from rfl, pow_succ, Nat.mul_comm (256 ^ k) 256, Nat.mod_mul]

/-- A header integer's bytes, read back (R92). -/
theorem intValue_intBytes (P : Params) (n : Nat) :
    intValue P (intBytes P n) = n % 256 ^ P.hdrIntBytes := by
  unfold intValue intBytes
  cases P.hdrBigEndian <;> simp [valueLE_bytes]

theorem intBytes_length (P : Params) (n : Nat) : (intBytes P n).length = P.hdrIntBytes := by
  unfold intBytes; cases P.hdrBigEndian <;> simp

/-- Piece number `j` of a concatenation of pieces of `k` items. -/
theorem take_drop_flatMap {α β : Type} (f : α → List β) (k : Nat) (hf : ∀ a, (f a).length = k)
    (L : List α) (rest : List β) (j : Nat) (a : α) (h : L[j]? = some a) :
    ((L.flatMap f ++ rest).drop (j * k)).take k = f a := by
  induction L generalizing j with
  | nil => cases h
  | cons x L ih =>
    cases j with
    | zero =>
      simp at h; subst h
      simp only [Nat.zero_mul, List.drop_zero, List.flatMap_cons, List.append_assoc]
      rw [← hf x]; simp
    | succ j =>
      simp only [List.flatMap_cons, List.append_assoc]
      rw [show (j + 1) * k = (f x).length + j * k by rw [hf]; ring, List.drop_append]
      simp only [Nat.add_sub_cancel_left]
      rw [List.drop_eq_nil_of_le (by omega), List.nil_append]
      exact ih j (by simpa using h)

theorem header_length (P : Params) (X : List Byte) : (header P X).length = headerLen P := by
  unfold header headerLen
  rw [List.length_flatMap]
  have : (freq X ++ [X.length]).map (fun a => (intBytes P a).length) =
      (freq X ++ [X.length]).map (fun _ => P.hdrIntBytes) :=
    List.map_congr_left fun a _ => intBytes_length P a
  rw [this, List.map_const', List.sum_replicate, List.length_append, freq_length]; rfl

/-- `256 ^ HDR_INT_BYTES = 2 ^ CW`: a header integer holds a count (R4). -/
theorem pow_hdrIntBytes {P : Params} (hP : P.wf) : 256 ^ P.hdrIntBytes = 2 ^ P.cw := by
  unfold Params.hdrIntBytes
  rw [show (256 : Nat) = 2 ^ 8 from rfl, ← pow_mul]
  congr 1; have := hP.2.1; omega

theorem headerInt_of {P : Params} (hP : P.wf) {X : List Byte} (rest : List Byte) {j n : Nat}
    (h : (freq X ++ [X.length])[j]? = some n) (hn : n ≤ 2 ^ P.cw - 1) :
    headerInt P (header P X ++ rest) j = n := by
  have hp : 0 < 2 ^ P.cw := by positivity
  unfold headerInt header
  rw [take_drop_flatMap (intBytes P) P.hdrIntBytes (intBytes_length P) _ _ j n h,
    intValue_intBytes, Nat.mod_eq_of_lt]
  rw [pow_hdrIntBytes hP]; omega

/-- The header read back: the frequencies, the count, and what follows it. -/
theorem headerTable_of {P : Params} {X : List Byte} (hP : P.wf) (hX : X.length ≤ 2 ^ P.cw - 1)
    (rest : List Byte) : headerTable P (header P X ++ rest) = freq X := by
  unfold headerTable
  apply List.ext_getElem?
  intro i
  by_cases hi : i < 256
  · have hl : i < (freq X).length := by rw [freq_length]; exact hi
    rw [List.getElem?_map, List.getElem?_range hi, Option.map_some, List.getElem?_eq_getElem hl]
    congr 1
    apply headerInt_of hP
    · rw [List.getElem?_append_left hl, List.getElem?_eq_getElem hl]
    · have : (freq X)[i] ≤ X.length := by
        obtain ⟨b, -, e⟩ := List.mem_map.mp (List.getElem_mem hl : (freq X)[i] ∈ freq X)
        rw [← e]; exact List.count_le_length
      omega
  · rw [List.getElem?_eq_none (by simp; omega), List.getElem?_eq_none (by rw [freq_length]; omega)]

theorem headerCount_of {P : Params} {X : List Byte} (hP : P.wf) (hX : X.length ≤ 2 ^ P.cw - 1)
    (rest : List Byte) : headerCount P (header P X ++ rest) = X.length := by
  apply headerInt_of hP _ _ hX
  rw [List.getElem?_append_right (by rw [freq_length]), freq_length]; rfl

theorem payloadPart_of (P : Params) (X rest : List Byte) :
    payloadPart P (header P X ++ rest) = rest := by
  unfold payloadPart
  rw [← header_length P X, List.drop_append_of_le_length (le_refl _), List.drop_length, List.nil_append]

/-! ### Loading the block -/

theorem applyOps_append (P : Params) (x y : List (HostOp P.cw)) (b : Block P.cw) :
    applyOps P (x ++ y) b = applyOps P y (applyOps P x b) := by
  simp [applyOps, List.foldl_append]

/-- The NodeWrites of R165 from handle `k` on: NODE holds the arena's words there. -/
theorem load_nodes (P : Params) (arena : Arena) (k : Nat) (b : Block P.cw) (hr : b.runState ≠ .run)
    (hk : k + arena.length ≤ 512) :
    ∃ N, applyOps P ((arena.zipIdx k).map
        (fun (n, h) => .nodeWrite (BitVec.ofNat 9 h) (arenaWord n))) b = { b with node := N } ∧
      (∀ h, k ≤ h → h < k + arena.length → ∀ n, arena[h - k]? = some n →
        Memory.read N h = some (decodeNode (arenaWord n))) ∧
      (∀ h, h < k → Memory.read N h = Memory.read b.node h) := by
  induction arena generalizing k b with
  | nil => exact ⟨b.node, rfl, by intro h h1 h2; simp at h2; omega, fun _ _ => rfl⟩
  | cons n arena ih =>
    simp only [List.length_cons] at hk
    obtain ⟨N, h1, h2, h3⟩ :=
      ih (k + 1) (writeNode b (BitVec.ofNat 9 k) (decodeNode (arenaWord n))) hr (by omega)
    have hk' : (BitVec.ofNat 9 k).toNat = k := by simp; omega
    refine ⟨N, ?_, ?_, ?_⟩
    · simp only [List.zipIdx_cons, List.map_cons, applyOps, List.foldl_cons]
      rw [hostEffect_nodeWrite hr]
      exact h1
    · intro h ha hb m hm
      simp only [List.length_cons] at hb
      by_cases e : h = k
      · subst e
        simp at hm; subst hm
        rw [h3 h (by omega), writeNode_node, hk', Memory.read_write_same]
      · apply h2 h (by omega) (by omega)
        rw [show h - k = (h - (k + 1)) + 1 by omega] at hm
        simpa using hm
    · intro h hh
      rw [h3 h (by omega), writeNode_node, hk', Memory.read_write_other _ _ (by omega)]

/-- The PayWrites of R165 from index `k` on: PAY holds the payload's bytes there. -/
theorem load_payload (P : Params) (bytes : List Byte) (k : Nat) (b : Block P.cw)
    (hr : b.runState ≠ .run) (hk : k + bytes.length ≤ P.payCap) :
    ∃ M, applyOps P ((bytes.zipIdx k).map (fun (x, i) => .payWrite i x)) b = { b with pay := M } ∧
      (∀ i, k ≤ i → i < k + bytes.length → Memory.read M i = bytes[i - k]?) ∧
      (∀ i, i < k → Memory.read M i = Memory.read b.pay i) := by
  induction bytes generalizing k b with
  | nil => exact ⟨b.pay, rfl, by intro h h1 h2; simp at h2; omega, fun _ _ => rfl⟩
  | cons n bytes ih =>
    simp only [List.length_cons] at hk
    obtain ⟨M, h1, h2, h3⟩ := ih (k + 1) (writePay b k n) hr (by omega)
    refine ⟨M, ?_, ?_, ?_⟩
    · simp only [List.zipIdx_cons, List.map_cons, applyOps, List.foldl_cons]
      rw [hostEffect_payWrite hr (by omega)]
      exact h1
    · intro i ha hb
      simp only [List.length_cons] at hb
      by_cases e : i = k
      · subst e
        rw [h3 i (by omega), writePay_pay, Memory.read_write_same]; simp
      · rw [h2 i (by omega) (by omega), show i - k = (i - (k + 1)) + 1 by omega]
        simp
    · intro i hh
      rw [h3 i (by omega), writePay_pay, Memory.read_write_other _ _ (by omega)]

/-- The loading contract (R165): the operations bring the block to START on a block that holds the
arena, the root, the count and the payload. -/
theorem loadOps_eq (P : Params) (b : Block P.cw) (B : Built) (N : Nat) (bytes : List Byte)
    (hr : b.runState ≠ .run) (hc : P.carriesHandles) (ha : B.arena.length ≤ 511)
    (hroot : B.root < 512) (hp : bytes.length ≤ P.payCap) (hp2 : bytes.length < 2 ^ P.cw)
    (hN : N < 2 ^ P.cw) :
    ∃ c : Block P.cw, applyOps P (loadOps P B N bytes) b = startRun P c ∧ c.runState ≠ .run ∧
      c.root = BitVec.ofNat 9 B.root ∧ c.symcount.toNat = N ∧ c.paylen.toNat = bytes.length ∧
      (∀ h n, B.arena[h]? = some n → nodeAt c (BitVec.ofNat 9 h) = some (decodeNode (arenaWord n))) ∧
      (∀ i, i < bytes.length → bytes[i]? = some (payAt c i)) := by
  obtain ⟨ND, h1, h2, -⟩ := load_nodes P B.arena 0 b hr (by omega)
  obtain ⟨M, h3, h4, -⟩ := load_payload P bytes 0
    { b with node := ND, root := (BitVec.ofNat P.cw B.root).setWidth 9, symcount := BitVec.ofNat P.cw N }
    hr (by omega)
  have hcw : 2 ^ 9 ≤ 2 ^ P.cw := Nat.pow_le_pow_right (by omega) hc
  refine ⟨{ b with
      node := ND
      root := (BitVec.ofNat P.cw B.root).setWidth 9
      symcount := BitVec.ofNat P.cw N
      pay := M
      paylen := BitVec.ofNat P.cw bytes.length }, ?_, hr, ?_, ?_, ?_, ?_, ?_⟩
  · have e2 : applyOps P [.regWrite 2 (BitVec.ofNat P.cw B.root), .regWrite 3 (BitVec.ofNat P.cw N)]
        { b with node := ND } = { b with
          node := ND
          root := (BitVec.ofNat P.cw B.root).setWidth 9
          symcount := BitVec.ofNat P.cw N } := by
      have e : hostEffect P (.regWrite 2 (BitVec.ofNat P.cw B.root)) { b with node := ND } =
          { b with node := ND, root := (BitVec.ofNat P.cw B.root).setWidth 9 } :=
        (hostEffect_regWrite (by exact hr) (by decide)).trans (storeReg_root ..)
      simp only [applyOps, List.foldl_cons, List.foldl_nil]
      rw [e]
      exact (hostEffect_regWrite (by exact hr) (by decide)).trans (storeReg_symcount ..)
    unfold loadOps
    rw [applyOps_append, applyOps_append, applyOps_append, h1, e2, h3]
    have e : hostEffect P (.regWrite 4 (BitVec.ofNat P.cw bytes.length)) { b with
          node := ND
          root := (BitVec.ofNat P.cw B.root).setWidth 9
          symcount := BitVec.ofNat P.cw N
          pay := M } = { b with
          node := ND
          root := (BitVec.ofNat P.cw B.root).setWidth 9
          symcount := BitVec.ofNat P.cw N
          pay := M
          paylen := BitVec.ofNat P.cw bytes.length } :=
      (hostEffect_regWrite (by exact hr) (by decide)).trans (storeReg_paylen ..)
    simp only [applyOps, List.foldl_cons, List.foldl_nil]
    rw [e]
    exact hostEffect_start (by exact hr) (by unfold Params.carriesHandles at hc; simp; omega)
  · apply BitVec.eq_of_toNat_eq
    simp only [BitVec.toNat_setWidth, BitVec.toNat_ofNat]
    rw [Nat.mod_eq_of_lt (show B.root < 2 ^ P.cw by omega)]
  · simp only [BitVec.toNat_ofNat]; exact Nat.mod_eq_of_lt hN
  · simp only [BitVec.toNat_ofNat]; exact Nat.mod_eq_of_lt hp2
  · intro h n hn
    have hlt : h < B.arena.length := by
      by_contra hc
      rw [List.getElem?_eq_none (by omega)] at hn; cases hn
    have : (BitVec.ofNat 9 h).toNat = h := by simp; omega
    simp only [nodeAt, this]
    exact h2 h (by omega) (by omega) n (by simpa using hn)
  · intro i hi
    simp only [payAt]
    rw [h4 i (by omega) (by omega)]
    simp [hi]

/-- The word of an arena entry, decoded by the block: the entry (R84, R165). -/
theorem decodeNode_arenaWord (n : TreeNode) :
    decodeNode (arenaWord n) = match n.kind with
      | .leaf s => .leaf s
      | .internal l r => decodeNode (BitVec.ofNat 19 (512 * l + r)) := by
  unfold arenaWord
  cases n.kind with
  | leaf s =>
    have := s.isLt
    rw [decodeNode_of_leafBit (by simp only [BitVec.toNat_ofNat]; omega)]
    congr 1
    exact BitVec.eq_of_toNat_eq (by simp; omega)
  | internal l r => rfl

theorem decodeNode_internalWord {l r : Nat} (hl : l < 512) (hr : r < 512) :
    decodeNode (BitVec.ofNat 19 (512 * l + r)) =
      .internal (BitVec.ofNat 9 l) (BitVec.ofNat 9 r) := by
  have e : (BitVec.ofNat 19 (512 * l + r)).toNat = 512 * l + r := by
    simp only [BitVec.toNat_ofNat]; omega
  rw [decodeNode_of_noLeafBit (by omega), e]
  congr 2 <;> omega

/-- The loaded NODE holds the tree of the arena (R224 (P2)). -/
theorem treeAt_of_loaded {cw : Nat} {c : Block cw} {arena : Arena} (ha : arena.length ≤ 511)
    (hn : ∀ h n, arena[h]? = some n →
      nodeAt c (BitVec.ofNat 9 h) = some (decodeNode (arenaWord n)))
    (T : Tree) (h : Nat) (hT : arenaTree arena h T) : treeAt c (BitVec.ofNat 9 h) T := by
  induction T generalizing h with
  | leaf s =>
    simp only [arenaTree, kindAt] at hT
    obtain ⟨n, h1, h2⟩ := Option.map_eq_some_iff.mp hT
    simp only [treeAt]
    rw [hn h n h1, decodeNode_arenaWord, h2]
  | node l r ihl ihr =>
    obtain ⟨x, y, h1, h2, h3⟩ := hT
    obtain ⟨n, h4, h5⟩ := Option.map_eq_some_iff.mp h1
    have hx := arenaTree_lt h2
    have hy := arenaTree_lt h3
    refine ⟨BitVec.ofNat 9 x, BitVec.ofNat 9 y, ?_, ihl _ h2, ihr _ h3⟩
    rw [hn h n h4, decodeNode_arenaWord, h5]
    simp only
    rw [decodeNode_internalWord (by omega) (by omega)]

/-- Steps 6 and 7 of `decompress` (R163), for the tree built from `X` and its count: the block is loaded
so that START begins a run over the payload's bits under that tree. -/
theorem loaded_run {P : Params} {b : Block P.cw} {X : List Byte} {B : Built} {T : Tree}
    {bytes : List Byte} (hP : P.wf) (hc : P.carriesHandles) (hr : b.runState ≠ .run) (hX : X ≠ [])
    (hG : BuiltTree (present (freq X)) B T) (ho : X.length ≤ P.outCap)
    (hp : bytes.length ≤ P.payCap) :
    ∃ c : Block P.cw, Startable P c ∧ treeAt c c.root T ∧ c.symcount.toNat = X.length ∧
      c.paylen.toNat = bytes.length ∧ streamBits c = bitsOf bytes ∧
      decodeOnBlock P b B X.length bytes =
        mapResult P X.length (runEngine P (8 * bytes.length + 1) (startRun P c)) := by
  have h256 := present_length_le (freq X)
  have hpc : P.payCap ≤ 2 ^ P.cw - 1 := hP.2.2.2.1
  have hoc : P.outCap ≤ 2 ^ P.cw - 1 := hP.2.2.2.2.2
  have hpos : 0 < 2 ^ P.cw := by positivity
  have hpp : 0 < (present (freq X)).length := List.length_pos_iff.mpr (present_ne_nil hX)
  have hal := hG.length
  have hrt := hG.root
  obtain ⟨c, e1, hcr, hroot, hsc, hpy, hnd, hpay⟩ := loadOps_eq P b B X.length bytes hr hc
    (by omega) (by omega) hp (by omega) (by omega)
  have hX0 : 0 < X.length := List.length_pos_iff.mpr hX
  have hst : Startable P c :=
    ⟨hcr, by intro e; rw [e] at hsc; simp at hsc; omega, by omega, by omega⟩
  refine ⟨c, hst, by rw [hroot]; exact treeAt_of_loaded (by omega) hnd T _ hG.tree, hsc, hpy,
    streamBits_of_bytes hpy hpay, ?_⟩
  unfold decodeOnBlock
  rw [if_neg (by omega), e1, runToEnd, (startRun_runOf hst).1.paylen, hpy]

end Sys2Proof.Machine.Codec
end

