-- ==== Sys2Proof/Laws/PerInstr.lean ====
section
/-! SUPPORT. Per instruction, as syntax: its row of spec/opcode_table.json (R89). -/

namespace Sys2Proof.Laws.TableWord

/-- The bits of the instruction's row in whole bytes: 1 bit of format S, `CW = 32` bits of format C. -/
def rowBits : Instr → Nat
  | .dl => 8
  | .dr => 8
  | .start => 32

/-- The row's `match`; every row's `mask` is 0x1. -/
def rowMatch : Instr → Nat
  | .dl => 0
  | .dr => 1
  | .start => 1

/-- The instruction is well formed, and every word that agrees with its row on the mask, whatever its
other bits, is read as the instruction. -/
def Statement (i : Instr) : Prop :=
  i.wellFormed = true ∧ ∀ w, w &&& 1 = rowMatch i → decodeTableWord (rowBits i) w = some i

/-- Bit 0 of a word under the mask 0x1. -/
theorem testBit_zero_of_mask {w m : Nat} (h : w &&& 1 = m) : w.testBit 0 = decide (m = 1) := by
  rw [Nat.and_one_is_mod] at h
  rw [Nat.testBit_zero, h]

theorem dl : Statement .dl := by
  refine ⟨rfl, fun w h => ?_⟩
  have e := testBit_zero_of_mask h
  simp only [decodeTableWord, rowBits, e]; rfl

theorem dr : Statement .dr := by
  refine ⟨rfl, fun w h => ?_⟩
  have e := testBit_zero_of_mask h
  simp only [decodeTableWord, rowBits, e]; rfl

theorem start : Statement .start := by
  refine ⟨rfl, fun w h => ?_⟩
  have e : (BitVec.ofNat 32 w).getLsbD 0 = true := by
    rw [BitVec.getLsbD_ofNat, testBit_zero_of_mask h]; rfl
  simp only [decodeTableWord, rowBits, decodeCommand, e]; rfl

end Sys2Proof.Laws.TableWord
end

