-- ==== Sys2Proof/Tests/Slice0.lean ====
section
/-! SUPPORT. Tests of the model's own work (95_test_vectors.md), the WellFormed smoke, and a witness for
every statement that has hypotheses. -/

namespace Sys2Proof.Tests

open Sys2Proof Sys2Proof.Machine Sys2Proof.Machine.Codec

/-! ### Small states -/

/-- Whether an outcome is a next state that satisfies a check. -/
def after {σ : Type} (o : Host.Outcome σ Fault Refusal) (check : σ → Bool) : Bool :=
  match o with
  | .next s => check s
  | .fault _ => false
  | .refused _ => false

/-- NODE of vector V1. -/
def v1Nodes : List (Nat × NodeEntry) :=
  [(0, .leaf 0x41), (1, .leaf 0x42), (2, .leaf 0x43), (3, .leaf 0x44), (4, .leaf 0x52),
   (5, .internal 2 3), (6, .internal 1 4), (7, .internal 5 6), (8, .internal 0 7)]

/-- The machine loaded with V1, before START. -/
def v1 : State := { State.reset with
  root := 8, symcount := 11, paylen := 3, node := v1Nodes
  pay := [(0, 0x6E), (1, 0x8A), (2, 0xDC)] }

/-- V1 in RUN, at a position of the walk. -/
def v1At (cur : Handle) (emitted bytepos : BitVec 32) (bitidx : BitVec 3) : State := { v1 with
  runState := .run, cur := cur, emitted := emitted, bytepos := bytepos, bitidx := bitidx }

/-- The machine of V2 (root-leaf tree), in RUN at its first bit. -/
def v2Run : State := { State.reset with
  runState := .run, symcount := 4, paylen := 1, node := [(0, .leaf 0x41)], pay := [(0, 0xF0)] }

/-- The machine loaded with V3, before START. -/
def v3 : State := { State.reset with
  root := 4, symcount := 6, paylen := 2
  node := [(0, .leaf 0x00), (1, .leaf 0x80), (2, .leaf 0xFF), (3, .internal 1 2), (4, .internal 0 3)]
  pay := [(0, 0x69), (1, 0x80)] }

/-- The tree of V3. -/
def v3Tree : Tree := .node (.leaf 0x00) (.node (.leaf 0x80) (.leaf 0xFF))

/-- The codewords of V3's input, in order. -/
def v3Words : List (List Bool × Byte) :=
  [([false], 0x00), ([true, true], 0xFF), ([false], 0x00), ([true, false], 0x80), ([false], 0x00),
   ([true, true], 0xFF)]

/-- A state with one move of the host to come. -/
def withOp (s : State) (op : HostOp 32) : State := { s with turns := [.host op] }

/-! ### Decoding, from words written out bit by bit -/

/-- R81: `0` is DL, `1` is DR; R51: bit 7 first, so of 0b10000000 the first bit is 1. -/
theorem test_decode_streamBits :
    decode (cw := 32) (.streamBit false) = .instr .dl ∧
    decode (cw := 32) (.streamBit true) = .instr .dr ∧
    streamBit 0b10000000#8 0 = true ∧ streamBit 0b00000001#8 7 = true ∧
    streamBit 0b01111111#8 0 = false := by decide

/-- R83, H8, H9. -/
theorem test_decode_command :
    decode (.command 0b00000000000000000000000000000001#32) = .instr .start ∧
    decode (.command 0b11111111111111111111111111111111#32) = .instr .start ∧
    decode (.command 0b11111111111111111111111111111110#32) = .rejected .noCommand := by decide

/-- R84: LEAF 1, reserved 0, SYM 0x41; LEAF 0, LEFT 5, RIGHT 6 (V1's entry 7). -/
theorem test_decode_node :
    decodeNode 0b1000000000001000001#19 = .leaf 0x41 ∧
    decodeNode 0b0000000101000000110#19 = .internal 5 6 ∧
    encodeNode (.internal 5 6) = 0x00A06#19 ∧ encodeNode (.leaf 0x41) = 0x40041#19 := by decide

/-- The rows of spec/opcode_table.json, and that a command word with bit 0 clear is none of them. -/
theorem test_decodeTableWord :
    decodeTableWord 8 0 = some .dl ∧ decodeTableWord 8 1 = some .dr ∧
    decodeTableWord 32 1 = some .start ∧ decodeTableWord 32 0 = none := by decide

/-! ### WellFormed refuses an ill-formed term, check by check -/

theorem test_wf_refuses_cw_zero : ¬ Params.wf ⟨0, 1, 1, false⟩ := by decide
theorem test_wf_refuses_cw_not_bytes : ¬ Params.wf ⟨12, 1, 1, false⟩ := by decide
theorem test_wf_refuses_payCap_zero : ¬ Params.wf ⟨8, 0, 1, false⟩ := by decide
theorem test_wf_refuses_payCap_too_large : ¬ Params.wf ⟨8, 256, 1, false⟩ := by decide
theorem test_wf_refuses_outCap_zero : ¬ Params.wf ⟨8, 1, 0, false⟩ := by decide
theorem test_wf_refuses_outCap_too_large : ¬ Params.wf ⟨8, 1, 256, false⟩ := by decide
theorem test_wf_accepts_edges : Params.wf ⟨8, 1, 255, true⟩ ∧ Params.wf Config.params := by decide
theorem test_carriesHandles_refuses_cw_8 : ¬ Params.carriesHandles ⟨8, 1, 1, false⟩ := by decide
theorem test_encoded_refuses_no_command : Encoded.wellFormed (.command 0xFFFFFFFE#32) = false := by
  decide

/-! ### One step from reset with an instruction placed -/

theorem test_fetch_dl :
    fetch Config.params (State.reset.withFetchWord 8 0).toBlock = .instr .dl ∧
    after (step (State.reset.withFetchWord 8 0)) (fun t => t.bitidx = 1 && t.runState = .run) = true := by
  decide

theorem test_fetch_dr :
    fetch Config.params (State.reset.withFetchWord 8 1).toBlock = .instr .dr ∧
    after (step (State.reset.withFetchWord 8 1)) (fun t => t.bitidx = 1 && t.runState = .run) = true := by
  decide

/-- H3: START after reset. -/
theorem test_fetch_start :
    after (step (State.reset.withFetchWord 32 1)) (fun t => t.runState = .done && t.emitted = 0) = true := by
  decide

/-! ### Vectors, one step each -/

/-- V1 step 1: bit 0 at the root lands on leaf 41. -/
theorem test_dl_emits :
    after (exec .dl (v1At 8 0 0 0)) (fun t => t.out = [(0, 0x41)] && t.emitted = 1 && t.cur = 8 &&
      t.bytepos = 0 && t.bitidx = 1) = true := by decide

/-- V1 step 23: the last symbol, DONE, the pad bit not consumed. -/
theorem test_dl_last_symbol :
    after (step (v1At 8 10 2 6)) (fun t => t.runState = .done && t.emitted = 11 && t.cur = 8 &&
      t.bytepos = 2 && t.bitidx = 7 && statusWord t.toBlock = 0x02) = true := by decide

/-- V1 step 2: bit 1 at the root moves to node 7; step 7's bit lands on leaf 52 at the byte's last bit
but one. -/
theorem test_dr_descends :
    after (step (v1At 8 1 0 1)) (fun t => t.cur = 7 && t.emitted = 1 && t.bitidx = 2) = true ∧
    after (step (v1At 6 2 0 6)) (fun t => t.cur = 8 && t.out = [(2, 0x52)] && t.bitidx = 7) = true := by
  decide

/-- V2b: bit 1 at a leaf root emits the root's symbol. -/
theorem test_dr_root_leaf :
    after (step v2Run) (fun t => t.out = [(0, 0x41)] && t.cur = 0 && t.bitidx = 1) = true := by decide

/-- H5: ALLOC before the zero-count shortcut. -/
theorem test_start_alloc_first :
    after (exec .start { State.reset with paylen := 65537 }) (fun t => statusWord t.toBlock = 0x33) =
      true := by decide

/-- H6: both counts at their capacities are allowed; H7: START leaves ERROR. -/
theorem test_start_at_capacity :
    after (exec .start { State.reset with symcount := 65536, paylen := 65536 })
      (fun t => t.runState = .run) = true ∧
    after (exec .start { State.reset with runState := .error, err := .alloc })
      (fun t => statusWord t.toBlock = 0x02) = true := by decide

/-- T8: a TREE error raised while landing leaves the pc, CUR and OUT; T9: TRUNC before TREE. -/
theorem test_errors_are_precise :
    after (step { v1At 7 1 0 2 with node := v1Nodes.filter (·.1 ≠ 6), out := [(0, 0x41)] })
      (fun t => statusWord t.toBlock = 0x23 && t.emitted = 1 && t.cur = 7 && t.bytepos = 0 &&
        t.bitidx = 2 && t.out = [(0, 0x41)]) = true ∧
    after (step { v1At 8 0 0 0 with node := [], paylen := 0 })
      (fun t => statusWord t.toBlock = 0x13) = true := by decide

/-- H10, H11: ROOT stores 9 bits; a read-only register drops the write. -/
theorem test_host_registers :
    after (step (withOp State.reset (.regWrite 2 0xFFFFFFFF))) (fun t => t.root = 0x1FF) = true ∧
    after (step (withOp State.reset (.regWrite 6 7))) (fun t => t.emitted = 0) = true := by decide

/-- H13, H14: reserved bits of a leaf word read back 0. -/
theorem test_host_node_words :
    hostReply Config.params (.nodeRead 3) (hostEffect Config.params (.nodeWrite 3 0x7FFFF) v1.toBlock) 0 =
      some (.node 0xC00FF) ∧
    hostReply Config.params (.nodeRead 3) (hostEffect Config.params (.nodeWrite 3 0x3FFFF) v1.toBlock) 0 =
      some (.node 0xBFFFF) := by decide

/-- H17: beyond PAY_CAP and OUT_CAP. -/
theorem test_host_beyond_capacity :
    (hostEffect Config.params (.payWrite 65536 0x11) v1.toBlock).pay = v1.pay ∧
    hostReply Config.params (.payRead 65536) v1.toBlock 0 = some (.byte 0) ∧
    hostReply Config.params (.outRead 65536) v1.toBlock 0 = some (.byte 0) := by decide

/-- R4, R193, H4 at other parameters: OUT_CAP = 1, so two symbols are ALLOC and one begins a run. -/
theorem test_stepAt_other_params :
    let s (n : BitVec 16) : State.At ⟨16, 2, 1, false⟩ :=
      { State.At.reset ⟨16, 2, 1, false⟩ with symcount := n, turns := [.host (.regWrite 0 1)] }
    after (stepAt (s 2)) (fun t => statusWord t.toBlock = 0x33) = true ∧
    after (stepAt (s 1)) (fun t => t.runState = .run) = true := by decide

/-! ### The environment, against part B3 and V3 -/

/-- V3: codes 0, 10, 11 and payload 69 80, from the packer alone (R160). -/
theorem test_pack_v3 : pack (v3Words.map Prod.fst).flatten = [0x69, 0x80] := by decide

/-- V3's merges (R155): ties go to the lower handle, the first selected goes left. -/
theorem test_merge_v3 :
    (mergeAll 2 [⟨.leaf 0x00, 3, none⟩, ⟨.leaf 0x80, 1, none⟩, ⟨.leaf 0xFF, 2, none⟩]).map
      TreeNode.kind =
      [.leaf 0x00, .leaf 0x80, .leaf 0xFF, .internal 1 2, .internal 0 3] := by decide

/-! ### Witnesses: a state that meets the hypotheses of each statement -/

theorem test_witness_DecodeInvertsEncode :
    0 < 32 ∧ Encoded.wellFormed (encode 32 .start) = true ∧
    Encoded.wellFormed (.command (cw := 32) 0) = false := by decide

/-- Bits 0 (false) and 1 (true) of the code, and pad bit 9, each at the pc of a block that holds it. -/
theorem test_witness_PackedStreamIsFetchedInOrder :
    let bits := (v3Words.map Prod.fst).flatten
    let at' (bytepos : BitVec 32) (bitidx : BitVec 3) : Block Config.params.cw :=
      { v3.toBlock with bytepos := bytepos, bitidx := bitidx }
    (∀ i, i < (pack bits).length → (pack bits)[i]? = some (payAt v3.toBlock i)) ∧
    8 < bits.length ∧ bits.length ≤ 9 ∧ 15 < 8 * (pack bits).length ∧
    nodeAt v3.toBlock v3.cur ≠ none ∧ v3.paylen.toNat = 2 ∧ 1 < Config.params.payCap ∧
    8 * (at' 0 0).bytepos.toNat + (at' 0 0).bitidx.toNat = 0 ∧ bits[0]? = some false ∧
    8 * (at' 0 1).bytepos.toNat + (at' 0 1).bitidx.toNat = 1 ∧ bits[1]? = some true ∧
    8 * (at' 1 1).bytepos.toNat + (at' 1 1).bitidx.toNat = 9 := by decide

theorem test_witness_NodeWordsOnTheHostPort :
    v1.runState ≠ .run ∧ (0x40000#19).getLsbD 18 = true ∧ (0x3FFFF#19).getLsbD 18 = false ∧
    (5 : Handle) ≠ 6 ∧ nodeAt v1.toBlock 9 = none ∧ nodeAt v1.toBlock 8 ≠ none ∧
    (HostOp.nodeWrite 8 0 : HostOp 32) ≠ .reset := by decide

theorem test_witness_ResetOperationInAnyState :
    (withOp (v1At 8 0 0 0) .reset).turns = .host .reset :: [] ∧
    (withOp (v1At 8 0 0 0) .reset).runState = .run := by decide

theorem test_witness_StepRunsTheFetchedInstruction :
    let s := v1At 8 10 2 7
    s.engineMoves ∧ ({ s with turns := [.engine] } : State).engineMoves ∧ s.runState = .run ∧
    s.bytepos.toNat < s.paylen.toNat ∧ s.bytepos.toNat < Config.params.payCap ∧
    nodeAt s.toBlock s.cur ≠ none := by decide

theorem test_witness_StepRunsTheCommandWord :
    (withOp v1 (.regWrite 0 1)).turns = .host (.regWrite 0 1) :: [] ∧ (1#32).getLsbD 0 = true ∧
    (withOp v1 (.regWrite 0 0xFFFFFFFE)).turns = .host (.regWrite 0 0xFFFFFFFE) :: [] ∧
    (0xFFFFFFFE#32).getLsbD 0 = false := by decide

theorem test_witness_HostOperationsComplete :
    (withOp (v1At 8 0 0 0) (.outRead 0)).turns = .host (.outRead 0) :: [] ∧
    (withOp (v1At 8 0 0 0) (.outRead 0)).runState = .run ∧
    (withOp v1 (.payRead 0)).turns = .host (.payRead 0) :: [] ∧
    (withOp v1 (.payRead 0)).runState ≠ .run := by decide

/-- Node 7 of V1 has two internal children; the last bit of the last byte, and one before it. -/
theorem test_witness_DescendToInternalChild :
    let s := v1At 7 2 2 7
    s.runState = .run ∧ s.bytepos.toNat < s.paylen.toNat ∧ s.bitidx = 7 ∧
    nodeAt s.toBlock s.cur = some (.internal 5 6) ∧ nodeAt s.toBlock 5 = some (.internal 2 3) ∧
    nodeAt s.toBlock 6 = some (.internal 1 4) ∧ (v1At 7 2 2 6).bitidx ≠ 7 := by decide

/-- Node 6 of V1 has two leaves; the last symbol of the run, and one before it. -/
theorem test_witness_DescendToLeafEmits :
    let s := v1At 6 10 2 7
    s.runState = .run ∧ s.bytepos.toNat < s.paylen.toNat ∧
    s.emitted.toNat < Config.params.outCap ∧ nodeAt s.toBlock s.cur = some (.internal 1 4) ∧
    nodeAt s.toBlock 1 = some (.leaf 0x42) ∧ nodeAt s.toBlock 4 = some (.leaf 0x52) ∧
    s.emitted + 1 = s.symcount ∧ (v1At 6 9 2 6).emitted + 1 ≠ s.symcount := by decide

theorem test_witness_RootLeafConsumesOneBit :
    v2Run.runState = .run ∧ v2Run.bytepos.toNat < v2Run.paylen.toNat ∧
    v2Run.emitted.toNat < Config.params.outCap ∧
    nodeAt v2Run.toBlock v2Run.cur = some (.leaf 0x41) ∧ v2Run.bitidx ≠ 7 ∧
    ({ v2Run with bitidx := 7 } : State).bitidx = 7 ∧ v2Run.emitted + 1 ≠ v2Run.symcount ∧
    ({ v2Run with emitted := 3 } : State).emitted + 1 = v2Run.symcount := by decide

/-- T1 (no byte left), T7 (NODE[CUR] invalid), T8 (a child invalid, on either side). -/
theorem test_witness_WalkErrorsArePrecise :
    (v1At 8 8 3 0).runState = .run ∧ (v1At 8 8 3 0).paylen.toNat ≤ (v1At 8 8 3 0).bytepos.toNat ∧
    (v1At 9 0 2 7).bytepos.toNat < (v1At 9 0 2 7).paylen.toNat ∧
    nodeAt (v1At 9 0 2 7).toBlock 9 = none ∧
    let s : State := { v1At 7 1 0 2 with node := [(7, .internal 5 6)] }
    s.runState = .run ∧ s.bytepos.toNat < s.paylen.toNat ∧
    nodeAt s.toBlock s.cur = some (.internal 5 6) ∧ nodeAt s.toBlock 5 = none ∧
    nodeAt s.toBlock 6 = none := by decide

theorem test_witness_FetchErrorsStopTheRun :
    (v1At 8 8 3 0).engineMoves ∧ (v1At 8 8 3 0).runState = .run ∧
    (v1At 8 8 3 0).paylen.toNat ≤ (v1At 8 8 3 0).bytepos.toNat ∧
    let s : State := { v1At 9 0 2 7 with turns := [.engine, .host .reset] }
    s.engineMoves ∧ s.runState = .run ∧ s.bytepos.toNat < s.paylen.toNat ∧
    nodeAt s.toBlock s.cur = none := by decide

theorem test_witness_EngineRestsOutsideRun :
    v1.runState ≠ .run ∧ v1.engineMoves ∧ ({ v1 with turns := [.engine] } : State).engineMoves := by decide

theorem test_witness_WalkFrame :
    (∃ t, exec .dl (v1At 8 0 0 0) = .next t ∧ t.emitted ≠ 0) ∧
    (∃ t, exec .dr (v1At 8 0 0 0) = .next t ∧ t.emitted = 0) ∧
    (∃ t, exec .dl (v1At 8 8 3 0) = .next t ∧ t.err ≠ .none) :=
  ⟨⟨_, rfl, by decide⟩, ⟨_, rfl, by decide⟩, ⟨_, rfl, by decide⟩⟩

/-- One above each capacity, both at capacity, and a zero count. -/
theorem test_witness_StartBeginsARun :
    v1.runState ≠ .run ∧
    Config.params.outCap < ({ v1 with symcount := 65537 } : State).symcount.toNat ∧
    Config.params.payCap < ({ v1 with paylen := 65537 } : State).paylen.toNat ∧
    ({ v1 with symcount := 65536 } : State).symcount.toNat ≤ Config.params.outCap ∧
    ({ v1 with paylen := 65536 } : State).paylen.toNat ≤ Config.params.payCap ∧
    ({ v1 with symcount := 65536 } : State).symcount ≠ 0 ∧ State.reset.symcount = 0 := by decide

theorem test_witness_StartIsDroppedDuringRun : (v1At 8 0 0 0).runState = .run := by decide

theorem test_witness_StartFrame : ∃ t, exec .start v1 = .next t ∧ t.runState = .run :=
  ⟨_, rfl, by decide⟩

theorem test_witness_OnlyStartBeginsARun :
    v1.runState ≠ .run ∧ (hostEffect Config.params (.regWrite 0 1) v1.toBlock).runState = .run := by
  decide

theorem test_witness_RegReadValues : 9 ≤ Config.params.cw ∧ 9 ≤ 9 := by decide

/-- Register numbers where the clauses meet: 1, 5 and 9 drop, 0 is the command. -/
theorem test_witness_RegWriteStores :
    (v1At 8 0 0 0).runState = .run ∧ v1.runState ≠ .run ∧ 9 ≤ Config.params.cw ∧ ((1 = 1) ∨ 5 ≤ 1) ∧ ((5 = 1) ∨ 5 ≤ 5) ∧
    ((9 = 1) ∨ 5 ≤ 9) ∧ (0#32).getLsbD 0 = false ∧ (0xFFFFFFFF#32).getLsbD 0 = true := by decide

theorem test_witness_PayWriteThenPayRead :
    v1.runState ≠ .run ∧ 65535 < Config.params.payCap ∧ Config.params.payCap ≤ 65536 ∧ 0 ≠ 65535 := by
  decide

theorem test_witness_UnwrittenBytesAreStable :
    v1.runState ≠ .run ∧ 65535 < Config.params.payCap ∧ Memory.read v1.pay 65535 = none ∧
    65535 < Config.params.outCap ∧ Memory.read v1.out 65535 = none ∧ Config.params.outCap ≤ 65536 := by
  decide

theorem test_witness_HostCannotDisturbARun :
    (v1At 8 0 0 0).runState = .run ∧ (HostOp.payWrite 2 0 : HostOp 32) ≠ .reset := by decide

theorem test_witness_MemoryReadsDuringRunAreFree : (v1At 8 0 0 0).runState = .run := by decide

theorem test_witness_ReadsHaveNoSideEffect :
    (withOp v1 (.regRead 1)).turns = .host (.regRead 1) :: [] ∧
    (withOp v1 (.nodeRead 3)).turns = .host (.nodeRead 3) :: [] ∧
    (withOp v1 (.payRead 0)).turns = .host (.payRead 0) :: [] ∧
    (withOp v1 (.outRead 0)).turns = .host (.outRead 0) :: [] := by decide

theorem test_witness_CanonicalMemories :
    Memory.wf v1.pay ∧ Memory.wf v3.pay ∧ Memory.wf v1.node ∧ Memory.wf v3.node ∧
    ¬ Memory.wf [(1, 0#8), (0, 0#8)] := by decide

/-- A legal block in RUN: V1 after `k` bits of the last byte, for the invariant's statements. -/
theorem legal_v1At (bitidx : BitVec 3) : Legal Config.params (v1At 8 10 2 bitidx).toBlock where
  err_iff := by decide +revert
  emitted_lt := by decide +revert
  symcount_le := by decide +revert
  bytepos_le := by decide +revert
  paylen_le := by decide +revert
  bitidx_zero _ h := absurd h (show (2 : BitVec 32) ≠ 3 by decide)
  cur_ok _ := .inl rfl
  node_wf := by decide +revert
  pay_wf := by decide +revert
  out_wf := by decide +revert
  node_below := by decide +revert
  pay_below := by decide +revert
  out_below := by decide +revert

theorem test_witness_EveryStepKeepsLegality : (v1At 8 10 2 6).Legal ∧ (withOp (v1At 8 10 2 6) .reset).Legal :=
  ⟨legal_v1At 6, legal_v1At 6⟩

theorem test_witness_LegalityAtEveryParameter :
    Params.wf Config.params ∧ (v1At 8 10 2 6).Legal ∧ Legal Config.params (v1At 8 10 2 6).toBlock :=
  ⟨by decide, legal_v1At 6, legal_v1At 6⟩

theorem test_witness_StatusHasSixValues :
    8 ≤ Config.params.cw ∧ Legal Config.params (v1At 8 10 2 6).toBlock := ⟨by decide, legal_v1At 6⟩

/-- A step without error, at either side of a byte's end. -/
theorem test_witness_PcAdvancesByOneBit :
    (∃ b, engineStep Config.params (v1At 8 10 2 7).toBlock = .next b ∧ b.runState ≠ .error) ∧
    (∃ b, engineStep Config.params (v1At 8 10 2 6).toBlock = .next b ∧ b.runState ≠ .error) ∧
    Legal Config.params (v1At 8 10 2 7).toBlock ∧ Legal Config.params (v1At 8 10 2 6).toBlock ∧
    (v1At 8 10 2 7).runState = .run :=
  ⟨⟨_, rfl, by decide⟩, ⟨_, rfl, by decide⟩, legal_v1At 7, legal_v1At 6, rfl⟩

/-- A legal block in RUN whose next step ends with an error: T7's. -/
theorem test_witness_error_step :
    ∃ b : Block Config.params.cw, Legal Config.params b ∧ b.runState = .run ∧
      ∃ b', engineStep Config.params b = .next b' ∧ b'.runState = .error := by
  refine ⟨{ (v1At 8 10 2 7).toBlock with node := [] }, ?_, rfl, _, rfl, by decide⟩
  have h := legal_v1At 7
  exact { err_iff := h.err_iff, emitted_lt := h.emitted_lt, symcount_le := h.symcount_le
          bytepos_le := h.bytepos_le, paylen_le := h.paylen_le, bitidx_zero := h.bitidx_zero
          cur_ok := fun _ => .inl rfl, node_wf := by decide, pay_wf := h.pay_wf, out_wf := h.out_wf
          node_below := by decide, pay_below := h.pay_below, out_below := h.out_below }

/-- A step that ends with DONE (V1 step 23) and one that stays in RUN. -/
theorem test_witness_DoneExactlyAtSymcount :
    Legal Config.params (v1At 8 10 2 6).toBlock ∧ (v1At 8 10 2 6).runState = .run ∧
    ∃ b, engineStep Config.params (v1At 8 10 2 6).toBlock = .next b ∧ b.runState = .done :=
  ⟨legal_v1At 6, rfl, _, rfl, by decide⟩

theorem test_witness_EveryRunEnds : Startable Config.params v1.toBlock ∧
    ∃ c c', runEngine Config.params 0 (startRun Config.params v1.toBlock) = .next c ∧ c.runState = .run ∧
      engineStep Config.params c = .next c' :=
  ⟨by decide, _, _, rfl, rfl, rfl⟩

/-- V3 decodes; with one payload byte (P3) it is truncated. -/
theorem test_witness_RunDecodesTheTree :
    Startable Config.params v3.toBlock ∧ treeAt v3.toBlock v3.root v3Tree ∧
    dec v3Tree 6 (streamBits v3.toBlock) = some [0x00, 0xFF, 0x00, 0x80, 0x00, 0xFF] ∧
    dec v3Tree 6 (streamBits { v3.toBlock with paylen := 1 }) = none :=
  ⟨by decide, ⟨0, 3, rfl, rfl, 1, 2, rfl, rfl, rfl⟩, by decide, by decide⟩

theorem test_witness_SuccessfulRunTakesOneStepPerBit :
    (∀ w ∈ v3Words, IsCodeword v3Tree w.1 w.2) ∧ v3Words.length = v3.symcount.toNat ∧
    streamBits v3.toBlock = (v3Words.map Prod.fst).flatten ++ List.replicate 7 false := by
  refine ⟨?_, by decide, by decide⟩
  simp only [IsCodeword, v3Tree]
  decide

/-- V1 loaded, and V1 after an earlier run that left other registers, OUT and PAY beyond PAYLEN. -/
theorem test_witness_RunDependsOnItsInputsOnly :
    let d : State := { v1 with
      runState := .done, emitted := 7, bytepos := 1, cur := 3, out := [(0, 0xAA)]
      pay := v1.pay ++ [(3, 0xFF)] }
    Startable Config.params v1.toBlock ∧ d.runState ≠ .run ∧ d.root = v1.root ∧
    d.symcount = v1.symcount ∧ d.paylen = v1.paylen ∧ (∀ h, nodeAt d.toBlock h = nodeAt v1.toBlock h) ∧
    ∀ i, i < v1.paylen.toNat → payAt d.toBlock i = payAt v1.toBlock i := by
  refine ⟨by decide, by decide, rfl, rfl, rfl, fun _ => rfl, by decide⟩

/-- H18: a dropped write between two steps of V1, with a further turn of the engine to come. -/
theorem test_witness_InterleavingDoesNotMatter :
    let pre : List (Turn 32) := [.engine, .host (.payWrite 2 0)]
    let s : State := { v1At 8 0 0 0 with turns := pre ++ [.engine] }
    .host .reset ∉ pre ∧ s.runState = .run ∧
    ∃ c, runEngine Config.params (pre.count .engine) s.toBlock = .next c ∧ c.runState = .run :=
  ⟨by decide, rfl, _, rfl, by decide⟩

/-- A dropped START before the last step of V1 (step 23), which ends the run. -/
theorem test_witness_InterleavingDoesNotMatter_last :
    let pre : List (Turn 32) := [.host (.regWrite 0 1)]
    let s : State := { v1At 8 10 2 6 with turns := pre ++ [.engine] }
    .host .reset ∉ pre ∧ s.runState = .run ∧
    ∃ b, runEngine Config.params (pre.count .engine + 1) s.toBlock = .next b ∧ b.runState = .done :=
  ⟨by decide, rfl, _, rfl, by decide⟩

/-- An index at either side of OUT_CAP, a byte that was written, and the tree of V3. -/
theorem test_witness_OutReadReturnsOut :
    v3.runState ≠ .run ∧ 65535 < Config.params.outCap ∧ Config.params.outCap ≤ 65536 ∧
    ({ v3 with out := Memory.write [] 65535 0x41 } : State).out = Memory.write [] 65535 0x41 ∧
    Startable Config.params v3.toBlock ∧ treeAt v3.toBlock v3.root v3Tree ∧
    dec v3Tree v3.symcount.toNat (streamBits v3.toBlock) = some [0x00, 0xFF, 0x00, 0x80, 0x00, 0xFF] ∧
    5 < v3.symcount.toNat :=
  ⟨by decide, by decide, by decide, rfl, by decide, test_witness_RunDecodesTheTree.2.1, by decide, by decide⟩

theorem test_witness_HandlesOnThePortAtEveryWidth :
    (Block.reset 8 0).runState ≠ .run ∧ (Block.reset 32 0).runState ≠ .run := by decide

/-- An engine step, one that stops (an index at PAY_CAP, which no legal block has), a host operation, and
the two walks. -/
theorem test_witness_MachineMovesAsItsBlockAtEveryParameter :
    (v1At 8 10 2 6).engineMoves ∧ (withOp v1 .reset).turns = .host .reset :: [] ∧
    (∃ b, engineStep Config.params (v1At 8 10 2 6).toBlock = .next b ∧ b.runState = .done) ∧
    engineStep Config.params { (v1At 8 0 65536 0).toBlock with paylen := 65537 } =
      .fault .payIndexOutOfRange ∧
    (∃ b, descend Config.params .left (v1At 7 1 0 2).toBlock = .next b ∧ b.cur = 5) ∧
    ∃ b, descend Config.params .right (v1At 7 1 0 2).toBlock = .next b ∧ b.cur = 6 :=
  ⟨by decide, rfl, ⟨_, rfl, by decide⟩, rfl, ⟨_, rfl, by decide⟩, _, rfl, by decide⟩

theorem test_witness_TreeSize : ([] : List Byte) = [] ∧ ([0x41] : List Byte) ≠ [] := by decide

theorem test_witness_build : (build (freq [0x41, 0x42])).isSome = true := by decide

theorem test_witness_HeaderChecks :
    let P : Params := ⟨8, 1, 1, false⟩
    ([] : List Byte).length < 257 * (P.cw / 8) ∧
    (headerTable P (1 :: List.replicate 256 0)).sum ≠ headerCount P (1 :: List.replicate 256 0) ∧
    257 * (P.cw / 8) ≤ (List.replicate 257 (0 : Byte)).length ∧
    headerCount P (List.replicate 257 0) = 0 ∧ (headerTable P (List.replicate 257 0)).sum = 0 := by
  decide +kernel

theorem test_witness_RoundTrip :
    Params.wf Config.params ∧ Config.params.carriesHandles ∧ State.reset.runState ≠ .run ∧
    ([0x41] : List Byte).length ≤ 2 ^ Config.params.cw - 1 ∧ ([0x41] : List Byte).length ≤ Config.params.outCap ∧
    (payloadOf [0x41]).length + 1 ≤ Config.params.payCap ∧ ([0x41] : List Byte) ≠ [] := by decide

theorem test_witness_compress : ∃ Z, compress Config.params [0x41] = .ok Z := ⟨_, rfl⟩

end Sys2Proof.Tests
end

section
/-! SUPPORT. The scope of the model, settled: the machine at the default parameters and at any is its
block (R4, R142), a packed bit string is fetched in order (R111, R160), and legality (R39) is kept by
every move. -/

namespace Sys2Proof.Machine

variable {P : Params}

/-! ### Legal blocks: what START and the host's operations keep -/

/-- START keeps a block legal: the run it begins has emitted nothing, stands at stream bit 0 and at the
root. -/
theorem legal_startRun {b : Block P.cw} (h : Legal P b) : Legal P (startRun P b) := by
  rcases startRun_cases b with ⟨-, e⟩ | ⟨-, -, e⟩ | ⟨-, -, -, -, e⟩ | ⟨-, ho, hp, hz, e⟩ <;> rw [e]
  · exact h
  · exact legal_of_not_run h (by simp) (by simp) rfl rfl rfl
  · exact legal_of_not_run h (by simp) (by simp) rfl rfl rfl
  · have hpos : 0 < b.symcount.toNat :=
      Nat.pos_of_ne_zero fun e0 => hz (BitVec.eq_of_toNat_eq (by simpa using e0))
    exact { h with
      err_iff := by simp
      emitted_lt := fun _ => by simpa using hpos
      symcount_le := fun _ => ho
      bytepos_le := fun _ => by simp
      paylen_le := fun _ => hp
      bitidx_zero := fun _ _ => rfl
      cur_ok := fun _ => .inl rfl }

/-- Outside RUN a register write keeps a block legal: it touches neither STATE and ERR nor a memory. -/
theorem legal_storeReg {b : Block P.cw} (h : Legal P b) (hr : b.runState ≠ .run) (n : Nat)
    (v : BitVec P.cw) : Legal P (storeReg b n v) := by
  unfold storeReg
  split <;> exact legal_of_not_run h hr h.err_iff rfl rfl rfl

/-- Outside RUN, where CUR need not be an internal entry, a write to NODE keeps a block legal. -/
theorem legal_writeNode {b : Block P.cw} (h : Legal P b) (hr : b.runState ≠ .run) (x : Handle)
    (e : NodeEntry) : Legal P (writeNode b x e) :=
  { h with
    cur_ok := fun hrun => absurd hrun hr
    node_wf := Memory.write_wf h.node_wf _ _
    node_below := Memory.write_below h.node_below x.isLt _ }

theorem legal_writePay {b : Block P.cw} (h : Legal P b) {i : Nat} (hi : i < P.payCap) (B : Byte) :
    Legal P (writePay b i B) :=
  { h with
    pay_wf := Memory.write_wf h.pay_wf _ _
    pay_below := Memory.write_below h.pay_below hi _ }

theorem legal_reset (P : Params) (epoch : Nat) : Legal P (Block.reset P.cw epoch) := by
  constructor <;> simp [Memory.wf, Memory.below]

/-- Every host operation keeps a block legal (R130 to R140). -/
theorem legal_hostEffect {b : Block P.cw} (h : Legal P b) (op : HostOp P.cw) :
    Legal P (hostEffect P op b) := by
  by_cases ho : op = .reset
  · exact ho ▸ legal_reset P (b.epoch + 1)
  by_cases hr : b.runState = .run
  · rwa [hostEffect_of_run hr ho]
  cases op with
  | reset => exact absurd rfl ho
  | regRead n => exact h
  | nodeRead x => exact h
  | payRead i => exact h
  | outRead i => exact h
  | nodeWrite x w => rw [hostEffect_nodeWrite hr]; exact legal_writeNode h hr x _
  | payWrite i B =>
    rcases Nat.lt_or_ge i P.payCap with hi | hi
    · rw [hostEffect_payWrite hr hi]; exact legal_writePay h hi B
    · rwa [hostEffect_payWrite_beyond hi]
  | regWrite n v =>
    by_cases hn : n = 0
    · subst hn
      cases hv : v.getLsbD 0 with
      | true => rw [hostEffect_start hr hv]; exact legal_startRun h
      | false => rwa [hostEffect_noCommand hv]
    · rw [hostEffect_regWrite hr hn]; exact legal_storeReg h hr n v

/-! ### Legal blocks: what the engine keeps -/

/-- In RUN a legal block has room in OUT (R59). -/
theorem Legal.emitted_lt_outCap {b : Block P.cw} (h : Legal P b) (hr : b.runState = .run) :
    b.emitted.toNat < P.outCap := (h.emitted_lt hr).trans_le (h.symcount_le hr)

/-- A move to an internal node keeps a legal block legal: CUR is that node. -/
theorem legal_moveTo {b : Block P.cw} (h : Legal P b) (hp : b.bytepos.toNat < b.paylen.toNat)
    {nxt l r : Handle} (hn : nodeAt b nxt = some (.internal l r)) :
    Legal P { advancePc b with cur := nxt } := by
  obtain ⟨hle, hzero⟩ := advancePc_bounds hp
  constructor <;> simp only [advancePc_runState, advancePc_err, advancePc_root, advancePc_symcount,
    advancePc_paylen, advancePc_emitted, advancePc_node, advancePc_pay, advancePc_out]
  case bytepos_le => exact fun _ => hle
  case bitidx_zero => exact fun _ => hzero
  case cur_ok => exact fun _ => .inr ⟨l, r, (nodeAt_congr (by simp) nxt).trans hn⟩
  exacts [h.err_iff, h.emitted_lt, h.symcount_le, h.paylen_le, h.node_wf, h.pay_wf, h.out_wf,
    h.node_below, h.pay_below, h.out_below]

/-- A counter below another counter that does not reach it when incremented is still below it. -/
theorem toNat_succ_lt_of_ne {cw : Nat} {x y : BitVec cw} (h : x.toNat < y.toNat) (hne : x + 1 ≠ y) :
    (x + 1).toNat < y.toNat := by
  have hsucc := toNat_succ_of_lt h
  have := mt BitVec.eq_of_toNat_eq hne
  omega

/-- A symbol emitted from a legal block in RUN, inside the payload, finds room in OUT and leaves a legal
block: STATE stays RUN only while EMITTED has not reached SYMCOUNT (R116). -/
theorem legal_emit {b : Block P.cw} (h : Legal P b) (hr : b.runState = .run)
    (hp : b.bytepos.toNat < b.paylen.toNat) (sym : Byte) :
    ∃ b', emit P sym (advancePc b) = .next b' ∧ Legal P b' := by
  have ho := h.emitted_lt_outCap hr
  have herr : b.err = .none := by simpa [hr] using h.err_iff
  obtain ⟨hle, hzero⟩ := advancePc_bounds hp
  rw [advancePc_bytepos] at hle hzero
  rw [advancePc_bitidx] at hzero
  exact ⟨_, emit_advancePc hr ho, {
    err_iff := by split <;> simp [herr]
    emitted_lt := fun hrun => toNat_succ_lt_of_ne (h.emitted_lt hr) fun e =>
      nomatch (if_pos e).symm.trans hrun
    symcount_le := fun _ => h.symcount_le hr
    bytepos_le := fun _ => hle
    paylen_le := fun _ => h.paylen_le hr
    bitidx_zero := fun _ => hzero
    cur_ok := fun _ => .inl rfl
    node_wf := h.node_wf
    pay_wf := h.pay_wf
    out_wf := Memory.write_wf h.out_wf _ _
    node_below := h.node_below
    pay_below := h.pay_below
    out_below := Memory.write_below h.out_below ho _ }⟩

/-- A landing of a legal block in RUN, from inside the payload, answers a legal block. -/
theorem legal_land {b : Block P.cw} (h : Legal P b) (hr : b.runState = .run)
    (hp : b.bytepos.toNat < b.paylen.toNat) (nxt : Handle) :
    ∃ b', land P nxt b = .next b' ∧ Legal P b' := by
  match hn : nodeAt b nxt with
  | none => exact ⟨_, land_of_invalid hn, legal_raise h (by simp)⟩
  | some (.internal l r) => exact ⟨_, land_of_internal hn, legal_moveTo h hp hn⟩
  | some (.leaf sym) => rw [land_of_leaf hn]; exact legal_emit h hr hp sym

/-- A step of the engine from a legal block answers a legal block: no index leaves its range (R59). -/
theorem legal_engineStep {b : Block P.cw} (h : Legal P b) :
    ∃ b', engineStep P b = .next b' ∧ Legal P b' := by
  by_cases hr : b.runState = .run
  · rcases engineStep_cases hr with ⟨-, hs⟩ | ⟨-, -, hs⟩ | ⟨e, hp, -, hs⟩
    · exact ⟨_, hs, legal_raise h (by simp)⟩
    · exact ⟨_, hs, legal_raise h (by simp)⟩
    · rw [hs, if_pos (hp.trans_le (h.paylen_le hr))]
      exact legal_land h hr hp _
  · exact ⟨b, engineStep_of_not_run hr, h⟩

/-- The next move is the engine's, or the host's with an operation (R142). -/
theorem State.At.engineMoves_or_host (s : State.At P) :
    s.engineMoves ∨ ∃ op rest, s.turns = .host op :: rest := by
  unfold State.At.engineMoves
  match s.turns with
  | [] => exact .inl (.inr rfl)
  | .engine :: _ => exact .inl (.inl rfl)
  | .host op :: rest => exact .inr ⟨op, rest, rfl⟩

/-- A step of the machine from a legal state answers a legal state, whoever moves. -/
theorem legal_stepAt {s : State.At P} (h : s.Legal) : ∃ t, stepAt s = .next t ∧ t.Legal := by
  rcases s.engineMoves_or_host with he | ⟨op, rest, ho⟩
  · obtain ⟨b', hs, hl⟩ := legal_engineStep h
    exact ⟨State.At.withBlock _ b', by rw [stepAt_of_engineMoves he, hs, onBlock_next], hl⟩
  · exact ⟨_, stepAt_of_host ho, legal_hostEffect h op⟩

/-- Settles O32: the invariant of R39 carries over each move of the engine and each host operation on a
block, and every step of the machine is one of these. -/
theorem legalityAtEveryParameter : Obligations.LegalityAtEveryParameter := fun _ _ =>
  ⟨fun _ h => legal_stepAt h, fun _ h => ⟨legal_engineStep h, legal_hostEffect h⟩⟩

/-! ### A packed bit string, fetched -/

/-- A fetch whose tests pass gives the instruction that stream bit number BITPOS selects (R30, R111). -/
theorem fetch_of_tests_pass {b : Block P.cw} (hp : b.bytepos.toNat < b.paylen.toNat)
    (hc : b.bytepos.toNat < P.payCap) (hn : nodeAt b b.cur ≠ none) :
    fetch P b = .instr (decodeStreamBit (streamBitAt b (bitpos b))) := by
  obtain ⟨e, he⟩ := Option.ne_none_iff_exists'.mp hn
  rw [fetch_of_entry (fetchTest_of_valid hp he) hc, streamBitAt_bitpos]

/-- Where PAY holds a packed bit string, stream bit `k` is its bit `k`, or a pad bit, which is 0. -/
theorem streamBitAt_of_packed {cw : Nat} {b : Block cw} {bits : List Bool}
    (h : ∀ i, i < (Codec.pack bits).length → (Codec.pack bits)[i]? = some (payAt b i)) {k : Nat}
    (hk : k < 8 * (Codec.pack bits).length) : streamBitAt b k = bits.getD k false := by
  have hi : k / 8 < (Codec.pack bits).length := by omega
  have hbyte := (h _ hi).symm.trans (Codec.pack_get bits (Codec.pack_length bits ▸ hi))
  rw [streamBitAt, Option.some.inj hbyte, Codec.streamBit_byteOfBits _ (Nat.mod_lt _ (by omega)),
    Nat.div_add_mod]

/-- Settles O3: every stream bit of the packed bytes is the string's bit or a pad bit, and the fetch
takes stream bit number BITPOS. -/
theorem packedStreamIsFetchedInOrder : Obligations.PackedStreamIsFetchedInOrder := by
  intro P b bits h
  have hlen := Codec.pack_length bits
  have hbit : ∀ k, k < bits.length → bits[k]? = some (streamBitAt b k) := fun k hk => by
    rw [streamBitAt_of_packed h (by omega), List.getD, List.getElem?_eq_getElem hk, Option.getD_some]
  have hpad : ∀ k, bits.length ≤ k → k < 8 * (Codec.pack bits).length → streamBitAt b k = false :=
    fun k hk hk' => by
      rw [streamBitAt_of_packed h hk', List.getD, List.getElem?_eq_none hk, Option.getD_none]
  refine ⟨hlen, hbit, hpad, ?_⟩
  rintro _ rfl hp hc hn
  have hf := fetch_of_tests_pass hp hc hn
  have hsel : ∀ v, bits[bitpos b]? = some v → fetch P b = .instr (decodeStreamBit v) := fun v hv => by
    obtain ⟨hk, -⟩ := List.getElem?_eq_some_iff.mp hv
    rw [hf, Option.some.inj ((hbit _ hk).symm.trans hv)]
  exact ⟨hsel false, hsel true, fun hk hk' => by rw [hf, bitpos, hpad _ hk hk']; rfl⟩

/-! ### The machine and its block -/

/-- Settles O50: a move of the machine is the engine's step or the host's effect on its block, and an
instruction is what `execBlock` does to it. -/
theorem machineMovesAsItsBlockAtEveryParameter :
    Obligations.MachineMovesAsItsBlockAtEveryParameter := by
  intro P s
  refine ⟨fun hm => ⟨fun b hb => ?_, fun f hf => ?_⟩, fun op rest ht => stepAt_of_host ht,
    fun b hb => ?_, fun b hb => ?_, rfl⟩
  · rw [stepAt_of_engineMoves hm, hb]; rfl
  · rw [stepAt_of_engineMoves hm, hf]; rfl
  · rw [execAt_eq, execBlock, hb]; rfl
  · rw [execAt_eq, execBlock, hb]; rfl

/-- Settles O49: `exec` and `execAt` have the same arms, and the step and the core take nothing else that
differs. -/
theorem theMachineIsTheOneAtTheDefaults : Obligations.TheMachineIsTheOneAtTheDefaults := by
  refine ⟨fun i s => by rw [exec_eq_execAt], fun s => by rw [step_eq_stepAt], ?_⟩
  rw [core, step_eq_stepAt]; rfl

end Sys2Proof.Machine
end

section
/-! SUPPORT. The state of the block, settled: what reset and RESET leave (R40, R140), what the register
port carries (R32, R33, R133), the canonical form of the memories (assumption 20), legality (R39) at the
default parameters, and the end of a run at SYMCOUNT (R116). -/

namespace Sys2Proof.Machine

variable {P : Params}

/-! ### Legality at the default parameters -/

/-- Settles O31: `step` is the step at the default parameters, and every step keeps legality. -/
theorem everyStepKeepsLegality : Obligations.EveryStepKeepsLegality := fun _ h => by
  rw [step_eq_stepAt]; exact legal_stepAt h

/-- Settles O30: the block of `State.reset` is a reset block. -/
theorem resetIsLegal : Obligations.ResetIsLegal := legal_reset Config.params 0

/-! ### Reset -/

/-- Settles O5: every register by its reset value, and outside RUN the engine's move does nothing. -/
theorem resetLeavesTheTableOfR40 : Obligations.ResetLeavesTheTableOfR40 := by
  refine ⟨rfl, rfl, rfl, rfl, rfl, rfl, rfl, rfl, rfl, fun _ => rfl, ?_⟩
  have hidle : State.reset.runState ≠ .run := nofun
  rw [step_of_engineMoves (.inr rfl), engineStep_of_not_run hidle]
  rfl

/-- Settles O6: the host's turn answers a state whose block is the reset block of the next epoch. -/
theorem resetOperationInAnyState : Obligations.ResetOperationInAnyState := fun _ _ hturn =>
  ⟨_, step_of_host hturn, rfl, rfl, rfl, rfl, rfl, rfl, rfl, rfl, rfl, fun _ => rfl, fun _ => rfl,
    fun _ => rfl, rfl⟩

/-! ### Registers on the port -/

/-- The STATUS view as a number: STATE in bits 1:0 and ERR in bits 7:4 (R32). -/
theorem statusWord_toNat {cw : Nat} (b : Block cw) (hcw : 8 ≤ cw) :
    (statusWord b : BitVec cw).toNat = b.runState.code.toNat + 16 * b.err.code.toNat := by
  rw [statusWord, BitVec.toNat_setWidth_of_le hcw]
  cases b.runState <;> cases b.err <;> rfl

/-- Register numbers 9 and above read 0 (R133). -/
theorem regRead_of_nine_le {cw : Nat} (b : Block cw) {n : Nat} (hn : 9 ≤ n) : regRead b n = 0 := by
  obtain ⟨k, rfl⟩ := Nat.exists_eq_add_of_le' hn
  rfl

/-- Settles O48: the port's width truncates the handles it reads and extends the word it stores. -/
theorem handlesOnThePortAtEveryWidth : Obligations.HandlesOnThePortAtEveryWidth := by
  intro P b v
  refine ⟨BitVec.toNat_setWidth .., BitVec.toNat_setWidth .., BitVec.toNat_setWidth .., fun hr => ?_⟩
  rw [hostEffect_regWrite hr (by decide), storeReg_root]
  exact BitVec.toNat_setWidth ..

/-- Settles O21: `v` is `regRead b`, and a port of at least 9 bits truncates no view. -/
theorem regReadValues : Obligations.RegReadValues := by
  intro P b draw hcw
  refine ⟨regRead b, fun _ => rfl, fun _ => rfl, BitVec.toNat_zero, statusWord_toNat b (by omega),
    BitVec.toNat_setWidth_of_le hcw, rfl, rfl, BitVec.toNat_setWidth_of_le hcw, rfl, rfl,
    BitVec.toNat_setWidth_of_le (by omega), fun n hn => ?_⟩
  rw [regRead_of_nine_le b hn]
  exact BitVec.toNat_zero

/-! ### The canonical form of memory -/

@[simp] theorem Memory.read_cons_same {α : Type} (k : Nat) (v : α) (m : List (Nat × α)) :
    Memory.read ((k, v) :: m) k = some v := if_pos rfl

theorem Memory.read_cons_of_ne {α : Type} {k a : Nat} (h : a ≠ k) (v : α) (m : List (Nat × α)) :
    Memory.read ((k, v) :: m) a = Memory.read m a := if_neg h

/-- In a canonical memory the first address lies below all the others. -/
theorem Memory.wf_cons {α : Type} {k : Nat} {v : α} {m : List (Nat × α)} :
    Memory.wf ((k, v) :: m) ↔ (∀ c ∈ m, k < c.1) ∧ Memory.wf m := by
  simp [Memory.wf, List.pairwise_cons]

/-- The first address of a canonical memory is the least one that is read, so no other canonical memory
that reads alike begins above it. -/
theorem Memory.head_le_of_read_eq {α : Type} {k k' : Nat} {v v' : α} {m n : List (Nat × α)}
    (hn : Memory.wf ((k', v') :: n))
    (h : ∀ i, Memory.read ((k, v) :: m) i = Memory.read ((k', v') :: n) i) : k' ≤ k := by
  by_contra hlt
  have hunread : Memory.read ((k', v') :: n) k = none := by
    refine Memory.read_eq_none_of_lt fun c hc => ?_
    rcases List.mem_cons.mp hc with rfl | hc
    · exact Nat.lt_of_not_le hlt
    · exact (Nat.lt_of_not_le hlt).trans ((Memory.wf_cons.mp hn).1 c hc)
  simpa [hunread] using h k

/-- The first address of a canonical memory is listed once: its tail does not read there. -/
theorem Memory.read_tail_head {α : Type} {k : Nat} {v : α} {m : List (Nat × α)}
    (hm : Memory.wf ((k, v) :: m)) : Memory.read m k = none :=
  Memory.read_eq_none_of_lt (Memory.wf_cons.mp hm).1

/-- Canonical memories that read alike at every address are equal. -/
theorem Memory.eq_of_read_eq {α : Type} {m n : List (Nat × α)} (hm : Memory.wf m) (hn : Memory.wf n)
    (h : ∀ i, Memory.read m i = Memory.read n i) : m = n := by
  induction m generalizing n with
  | nil =>
    cases n with
    | nil => rfl
    | cons d n => simpa [Memory.read] using h d.1
  | cons c m ih =>
    obtain ⟨k, v⟩ := c
    cases n with
    | nil => simpa [Memory.read] using h k
    | cons d n =>
      obtain ⟨k', v'⟩ := d
      obtain rfl : k = k' := le_antisymm
        (Memory.head_le_of_read_eq hm fun i => (h i).symm) (Memory.head_le_of_read_eq hn h)
      obtain rfl : v = v' := by simpa using h k
      have htail : ∀ i, Memory.read m i = Memory.read n i := fun i => by
        by_cases hi : i = k
        · rw [hi, Memory.read_tail_head hm, Memory.read_tail_head hn]
        · simpa [Memory.read_cons_of_ne hi] using h i
      rw [ih (Memory.wf_cons.mp hm).2 (Memory.wf_cons.mp hn).2 htail]

/-- Settles O29: by induction on the two lists for equality, and by the laws of a write. -/
theorem canonicalMemoriesAreEqualWhenTheyReadAlike :
    Obligations.CanonicalMemoriesAreEqualWhenTheyReadAlike := fun _ m _ a v hm hn =>
  ⟨Memory.eq_of_read_eq hm hn, Memory.write_wf hm a v, fun i => Memory.read_write m a i v⟩

/-! ### The end of a run at SYMCOUNT -/

/-- A step of the engine in RUN emits no symbol and does not end with DONE, or it emits one, goes back to
the root, and ends with DONE exactly where the new count is SYMCOUNT (R116). -/
theorem engineStep_emits {b b' : Block P.cw} (hr : b.runState = .run)
    (h : engineStep P b = .next b') :
    (b'.emitted = b.emitted ∧ b'.symcount = b.symcount ∧ b'.runState ≠ .done) ∨
    (b'.emitted = b.emitted + 1 ∧ b'.cur = b'.root ∧
      (b'.runState = .done ↔ b'.emitted = b'.symcount)) := by
  have hraise : ∀ e, engineStep P b = .next (raiseError e b) →
      b'.emitted = b.emitted ∧ b'.symcount = b.symcount ∧ b'.runState ≠ .done := fun e he => by
    obtain rfl := Host.Outcome.next.inj (he.symm.trans h)
    simp
  rcases engineStep_cases hr with ⟨-, hs⟩ | ⟨-, -, hs⟩ | ⟨e, -, -, hs⟩
  · exact .inl (hraise _ hs)
  · exact .inl (hraise _ hs)
  · rw [hs] at h
    split at h
    · rcases land_cases hr h with ⟨-, rfl⟩ | ⟨l, r, -, rfl⟩ | ⟨sym, -, -, rfl⟩
      · exact .inl (by simp)
      · exact .inl (by simp [hr])
      · exact .inr ⟨rfl, rfl, by simp⟩
    · cases h

/-- Settles O34: a step that does not emit leaves the count below SYMCOUNT, one that does compares the new
count with it, and a legal block in RUN has its count below SYMCOUNT. -/
theorem doneExactlyAtSymcount : Obligations.DoneExactlyAtSymcount := by
  intro P b b' hl hr hs
  have hlt := hl.emitted_lt hr
  have hl' : Legal P b' := by
    obtain ⟨c, hc, hcl⟩ := legal_engineStep hl
    exact Host.Outcome.next.inj (hc.symm.trans hs) ▸ hcl
  rcases engineStep_emits hr hs with ⟨he, hsym, hdone⟩ | ⟨he, hcur, hdone⟩
  · have hne : b'.emitted ≠ b'.symcount := fun e => by rw [← he, e, hsym] at hlt; omega
    exact ⟨.inl (by rw [he]), iff_of_false hdone hne, fun hd => absurd hd hdone, hl'.emitted_lt⟩
  · exact ⟨.inr (by rw [he, toNat_succ_of_lt hlt]), hdone, fun _ => hcur, hl'.emitted_lt⟩

end Sys2Proof.Machine
end

section
/-! SUPPORT. The memories, settled: what DL, DR and START leave unchanged (R112 to R118, R131), what the
host reads of a memory and when (R58, R62), the words of 30_encoding.md (R81 to R85), and the bytes after a
compressed buffer (R172). -/

namespace Sys2Proof.Machine

variable {cw : Nat} {P : Params}

/-! ### What a run only reads -/

/-- `c` has the configuration registers, NODE and PAY of `b`: what the instructions read and never write. -/
structure SameInputs (b c : Block cw) : Prop where
  root : c.root = b.root
  symcount : c.symcount = b.symcount
  paylen : c.paylen = b.paylen
  node : c.node = b.node
  pay : c.pay = b.pay
  epoch : c.epoch = b.epoch

theorem SameInputs.nodeAt {b c : Block cw} (h : SameInputs b c) (x : Handle) :
    Machine.nodeAt c x = Machine.nodeAt b x := nodeAt_congr h.node x

theorem SameInputs.payAt {b c : Block cw} (h : SameInputs b c) (i : Nat) :
    Machine.payAt c i = Machine.payAt b i := payAt_congr h.pay h.epoch i

/-! ### The frame of START -/

theorem sameInputs_startRun (b : Block P.cw) : SameInputs b (startRun P b) := by
  rcases startRun_cases b with ⟨-, e⟩ | ⟨-, -, e⟩ | ⟨-, -, -, -, e⟩ | ⟨-, -, -, -, e⟩ <;>
    rw [e] <;> exact ⟨rfl, rfl, rfl, rfl, rfl, rfl⟩

theorem startRun_out (b : Block P.cw) : (startRun P b).out = b.out := by
  rcases startRun_cases b with ⟨-, e⟩ | ⟨-, -, e⟩ | ⟨-, -, -, -, e⟩ | ⟨-, -, -, -, e⟩ <;> rw [e] <;> rfl

/-- Settles O19: START answers its state with the block `startRun` gives. -/
theorem startFrame : Obligations.StartFrame := by
  intro s t h
  rw [exec_eq] at h
  obtain ⟨b, hb, rfl⟩ := onBlock_eq_next h
  obtain rfl : startRun Config.params s.toBlock = b := Host.Outcome.next.inj hb
  have hin := sameInputs_startRun (P := Config.params) s.toBlock
  exact ⟨hin.root, hin.symcount, hin.paylen, hin.nodeAt, hin.payAt,
    outAt_congr (startRun_out _) hin.epoch, hin.epoch, rfl, rfl, rfl⟩

/-! ### The frame of DL and DR -/

/-- What DL or DR may have changed when `b` has become `c`: ERR on an error alone (R118), and OUT only at
EMITTED, by a symbol that is counted (R114). -/
structure WalkedTo (b c : Block cw) : Prop where
  inputs : SameInputs b c
  err : c.err = b.err ∨ c.runState = .error
  out : c.out = b.out ∨
    ∃ sym, c.emitted = b.emitted + 1 ∧ c.out = Memory.write b.out b.emitted.toNat sym

theorem walkedTo_self (b : Block cw) : WalkedTo b b :=
  ⟨⟨rfl, rfl, rfl, rfl, rfl, rfl⟩, .inl rfl, .inl rfl⟩

theorem walkedTo_raiseError (e : ErrCode) (b : Block cw) : WalkedTo b (raiseError e b) :=
  ⟨⟨rfl, rfl, rfl, rfl, rfl, rfl⟩, .inr rfl, .inl rfl⟩

theorem walkedTo_land {nxt : Handle} {b c : Block P.cw} (hr : b.runState = .run)
    (h : land P nxt b = .next c) : WalkedTo b c := by
  rcases land_cases hr h with ⟨-, rfl⟩ | ⟨l, r, -, rfl⟩ | ⟨sym, -, -, rfl⟩
  · exact walkedTo_raiseError _ b
  · exact ⟨by constructor <;> simp, .inl (by simp), .inl (by simp)⟩
  · exact ⟨⟨rfl, rfl, rfl, rfl, rfl, rfl⟩, .inl rfl, .inr ⟨sym, rfl, rfl⟩⟩

theorem walkedTo_descend {d : Dir} {b c : Block P.cw} (h : descend P d b = .next c) :
    WalkedTo b c := by
  by_cases hr : b.runState = .run
  · rcases descend_cases hr with ⟨-, hs⟩ | ⟨-, -, hs⟩ | ⟨e, -, -, hs⟩
    · exact Host.Outcome.next.inj (hs.symm.trans h) ▸ walkedTo_raiseError _ b
    · exact Host.Outcome.next.inj (hs.symm.trans h) ▸ walkedTo_raiseError _ b
    · exact walkedTo_land hr (hs.symm.trans h)
  · exact Host.Outcome.next.inj ((descend_of_not_run hr).symm.trans h) ▸ walkedTo_self b

/-- DL and DR answer their state with another block, the one their walk ends at. -/
theorem exec_walkedTo {s t : State} (h : exec .dl s = .next t ∨ exec .dr s = .next t) :
    ∃ c, WalkedTo s.toBlock c ∧ t = s.withBlock c := by
  simp only [exec_eq] at h
  rcases h with h | h <;> obtain ⟨c, hc, ht⟩ := onBlock_eq_next h <;> exact ⟨c, walkedTo_descend hc, ht⟩

theorem WalkedTo.outAt_of_ne {b c : Block cw} (h : WalkedTo b c) {i : Nat} (hi : i ≠ b.emitted.toNat) :
    outAt c i = outAt b i := by
  rcases h.out with ho | ⟨sym, -, ho⟩
  · exact outAt_congr ho h.inputs.epoch i
  · rw [outAt, ho, Memory.read_write_other _ _ hi, h.inputs.epoch, outAt]

/-- Where nothing was counted nothing was stored: a counter of at least one bit never meets itself again
after one increment. -/
theorem WalkedTo.outAt_of_emitted_eq {b c : Block cw} (h : WalkedTo b c) (hcw : 0 < cw)
    (he : c.emitted = b.emitted) (i : Nat) : outAt c i = outAt b i := by
  rcases h.out with ho | ⟨sym, hcount, -⟩
  · exact outAt_congr ho h.inputs.epoch i
  · have hone : (1 : BitVec cw) = 0 := by simpa using hcount.symm.trans he
    have hval := congrArg BitVec.toNat hone
    simp [hcw] at hval

/-- Settles O16: DL and DR walk, and a walk stores at EMITTED only. -/
theorem walkFrame : Obligations.WalkFrame := by
  intro s t h
  obtain ⟨c, hc, rfl⟩ := exec_walkedTo h
  exact ⟨hc.inputs.root, hc.inputs.symcount, hc.inputs.paylen, hc.inputs.nodeAt, hc.inputs.payAt,
    fun _ => hc.outAt_of_ne, hc.outAt_of_emitted_eq (by decide), hc.err.resolve_left,
    hc.inputs.epoch, rfl, rfl, rfl⟩

/-! ### What the host reads -/

/-- Settles O27: a memory's reply takes the free value in RUN, a register's does not look at STATE. -/
theorem memoryReadsDuringRunAreFree : Obligations.MemoryReadsDuringRunAreFree := by
  intro P b h i n draw hr
  refine ⟨?_, ?_, ?_, rfl⟩ <;> rw [hostReply, if_pos hr]

/-- Settles O28: the host's turn gives the block the operation's effect, and the four reads have none. -/
theorem readsHaveNoSideEffect : Obligations.ReadsHaveNoSideEffect := by
  intro s op rest hturn hread
  have heffect : hostEffect Config.params op s.toBlock = s.toBlock := by
    rcases hread with ⟨n, rfl⟩ | ⟨h, rfl⟩ | ⟨i, rfl⟩ | ⟨i, rfl⟩ <;> rfl
  exact ⟨_, step_of_host hturn, heffect⟩

/-! ### The words of 30_encoding.md -/

/-- Settles O1: the decoders compute on the words written out. -/
theorem encodingsReadAsTheSpecWritesThem : Obligations.EncodingsReadAsTheSpecWritesThem := by
  unfold Obligations.EncodingsReadAsTheSpecWritesThem
  decide

/-! ### Bytes after a compressed buffer -/

/-- A run over the tree `T` whose stream bits decode (R121) is DONE after the steps of R120, with the
decoded symbols in OUT. -/
theorem runEngine_of_decRest {b : Block P.cw} (hb : Startable P b) {T : Tree} (hT : treeAt b b.root T)
    {xs : List Byte} {rest : List Bool}
    (hd : decRest T b.symcount.toNat (streamBits b) = some (xs, rest)) :
    ∃ c, runEngine P (8 * b.paylen.toNat + 1) (startRun P b) = .next c ∧ c.runState = .done ∧
      outBytes c b.symcount.toNat = xs := by
  obtain ⟨hrun, hstate, hpos, hcur, hcount, -⟩ := startRun_runOf hb
  have hsym := hrun.symcount
  obtain ⟨c, hc, hsteps, -, -, hdone, -, -, hout⟩ :=
    (RunOf.decodes hb hT b.symcount.toNat _ hrun hstate hcur (by rw [hsym, hcount]; simp)).1 xs rest
      (by rwa [hpos, bitsFrom_zero])
  have hle := hc.bitpos_le
  refine ⟨c, ?_, hdone, by simpa [hsym, hcount, outBytes] using hout⟩
  calc runEngine P (8 * b.paylen.toNat + 1) (startRun P b)
      = runEngine P (bitpos c - bitpos (startRun P b) + (8 * b.paylen.toNat + 1 - bitpos c))
          (startRun P b) := by congr 1; omega
    _ = runEngine P (8 * b.paylen.toNat + 1 - bitpos c) c := runEngine_add hsteps _
    _ = .next c := runEngine_of_not_run (by simp [hdone]) _

namespace Codec

/-- The bits of an input's payload with bytes after it are the input's codes, then the pad bits and the
bits of those bytes. -/
theorem bitsOf_payload_append {X : List Byte} {B : Built} (hB : build (freq X) = some B)
    (extra : List Byte) :
    ∃ rest, bitsOf (payloadOf X ++ extra) =
      ((X.map fun x => (codeOf (codes B) x, x)).map Prod.fst).flatten ++ rest := by
  rw [payloadOf, hB, bitsOf_append, bitsOf_pack, encodeBits_eq, List.append_assoc]
  exact ⟨_, rfl⟩

/-- The block loaded with the tree of `X` and its payload, bytes after it or not, decodes to `X`. -/
theorem decodeOnBlock_payload_append {b : Block P.cw} {X : List Byte} {B : Built} (extra : List Byte)
    (hP : P.wf) (hc : P.carriesHandles) (hr : b.runState ≠ .run) (hX : X ≠ [])
    (hB : build (freq X) = some B) (ho : X.length ≤ P.outCap)
    (hp : (payloadOf X ++ extra).length ≤ P.payCap) :
    decodeOnBlock P b B X.length (payloadOf X ++ extra) = .ok X := by
  obtain ⟨T, hG⟩ := build_freq hB
  obtain ⟨c, hst, hT, hsym, hlen, hbits, hdec⟩ := loaded_run hP hc hr hX hG ho hp
  obtain ⟨rest, hpay⟩ := bitsOf_payload_append hB extra
  have hcodes := decRest_codewords T _ rest (codewords_of_input hG)
  rw [← hpay, ← hbits, List.length_map, ← hsym] at hcodes
  obtain ⟨d, hrun, hdone, hout⟩ := runEngine_of_decRest hst hT hcodes
  rw [hdec, ← hlen, hrun, mapResult, hdone, ← hsym, hout]
  simp [Function.comp_def]

/-- Decompressing the header and the payload of `X`, with bytes after them or not, gives `X` back (R163,
R167, R172). -/
theorem decompress_append {b : Block P.cw} {X : List Byte} (extra : List Byte) (hP : P.wf)
    (hc : P.carriesHandles) (hr : b.runState ≠ .run) (hlen : X.length ≤ 2 ^ P.cw - 1)
    (ho : X.length ≤ P.outCap) (hp : (payloadOf X ++ extra).length ≤ P.payCap) :
    decompress P b (header P X ++ (payloadOf X ++ extra)) = .ok X := by
  have hlong : ¬ (header P X ++ (payloadOf X ++ extra)).length < headerLen P := by
    rw [List.length_append, header_length]; omega
  rw [decompress, if_neg hlong, headerTable_of hP hlen, headerCount_of hP hlen, freq_sum,
    if_neg (not_not.mpr rfl), payloadPart_of]
  by_cases hX : X = []
  · rw [hX]; rfl
  · obtain ⟨B, -, hB, -⟩ := build_of_present (present_ne_nil hX)
    rw [if_neg (mt List.length_eq_zero_iff.mp hX), hB]
    exact decodeOnBlock_payload_append extra hP hc hr hX hB ho hp

end Codec

/-- Settles O46: the run takes SYMCOUNT codewords and ends, whatever bits follow them. -/
theorem trailingPayloadIsIgnored : Obligations.TrailingPayloadIsIgnored := by
  intro P b X Z extra hP hc hr ho hp hZ
  rw [Codec.compress] at hZ
  split at hZ
  next hlen =>
    rw [← Codec.Result.ok.inj hZ, List.append_assoc]
    exact Codec.decompress_append extra hP hc hr hlen ho (by rwa [List.length_append])
  next => cases hZ

end Sys2Proof.Machine
end

section
/-! SUPPORT. The encodings, settled: formats S, C and N round-trip (R81 to R85), the node word, the STATUS
word and the command word on the host port (R85, R89, R91), and the bounds and checks of the wire format
(R92, R95, R163, R164). -/

namespace Sys2Proof

/-! ### Formats S and C -/

/-- An encoded instruction is decoded back, wherever a command word has a bit 0 to hold (R81, R83). -/
theorem decode_encode {cw : Nat} (hcw : 0 < cw) (i : Instr) : decode (encode cw i) = .instr i := by
  cases i with
  | dl => rfl
  | dr => rfl
  | start =>
    have hbit : (BitVec.ofNat cw 1).getLsbD 0 = true := by simp [hcw]
    rw [encode, decode, decodeCommand, if_pos hbit]

/-- A form is decoded to an instruction exactly when it is a stream bit or a command word with bit 0 set
(R83, R90). -/
theorem exists_decode_eq_instr_iff {cw : Nat} (e : Encoded cw) :
    (∃ i, decode e = .instr i) ↔ e.wellFormed = true := by
  cases e with
  | streamBit b => exact iff_of_true ⟨decodeStreamBit b, rfl⟩ rfl
  | command v => cases hv : v.getLsbD 0 <;> simp [decode, decodeCommand, Encoded.wellFormed, hv]

/-! ### Format N -/

/-- Format N loses no bit of an entry (R84). -/
theorem decodeNode_encodeNode (e : NodeEntry) : decodeNode (encodeNode e) = e := by
  cases e with
  | leaf s =>
    rw [decodeNode_of_leafBit (by rw [encodeNode_leaf_toNat]; omega), encodeNode_leaf_toNat]
    congr 1
    have := s.isLt
    exact BitVec.eq_of_toNat_eq (by rw [BitVec.toNat_ofNat]; omega)
  | internal l r =>
    have := l.isLt
    have := r.isLt
    rw [decodeNode_of_noLeafBit (by rw [encodeNode_internal_toNat]; omega), encodeNode_internal_toNat]
    congr 1 <;> exact BitVec.eq_of_toNat_eq (by rw [BitVec.toNat_ofNat]; omega)

/-- Below bit 18 a leaf word holds the symbol, its reserved bits 0 (R84, R85). -/
theorem encodeNode_leaf_getLsbD (s : Byte) {i : Nat} (hi : i < 18) :
    (encodeNode (.leaf s)).getLsbD i = s.getLsbD i := by
  rw [BitVec.getLsbD, encodeNode_leaf_toNat]
  exact Nat.testBit_two_pow_add_gt hi s.toNat

/-- Bit 18 of a leaf word, LEAF, is set (R84). -/
theorem encodeNode_leaf_leafBit (s : Byte) : (encodeNode (.leaf s)).getLsbD 18 = true := by
  rw [nodeWord_leafBit, encodeNode_leaf_toNat]
  exact decide_eq_true (Nat.le_add_right _ _)

/-- A leaf word decoded and encoded again has lost its reserved bits 17:8 and nothing else (R85). -/
theorem encodeNode_decodeNode_leaf {w : NodeWord} (h : w.getLsbD 18 = true) :
    encodeNode (decodeNode w) = w &&& 0x400FF#19 := by
  have hmask : ∀ i < 18, (0x400FF#19).getLsbD i = decide (i < 8) := by decide
  rw [decodeNode, if_pos h]
  apply BitVec.eq_of_getLsbD_eq
  intro i hi
  rw [BitVec.getLsbD_and]
  rcases Nat.lt_or_ge i 18 with hlow | htop
  · rw [encodeNode_leaf_getLsbD _ hlow, hmask i hlow, BitVec.getLsbD_extractLsb', Nat.zero_add,
      Bool.and_comm]
  · obtain rfl : i = 18 := by omega
    rw [encodeNode_leaf_leafBit, h]
    rfl

/-- An internal word has no reserved bits: decoded and encoded again it is the same word (R84). -/
theorem encodeNode_decodeNode_internal {w : NodeWord} (h : w.getLsbD 18 = false) :
    encodeNode (decodeNode w) = w := by
  have hw : w.toNat < 2 ^ 18 := by
    rw [nodeWord_leafBit] at h
    simpa using h
  apply BitVec.eq_of_toNat_eq
  rw [decodeNode_of_noLeafBit hw, encodeNode_internal_toNat, BitVec.toNat_ofNat, BitVec.toNat_ofNat]
  omega

/-- Settles O2: format by format, by the constructors of the form and of the entry, and by bit 18 of the
word. -/
theorem decodeInvertsEncode : Obligations.DecodeInvertsEncode := by
  refine ⟨fun cw hcw i => ?_, fun cw => exists_decode_eq_instr_iff, decodeNode_encodeNode, fun w => ?_⟩
  · have hdec := decode_encode hcw i
    exact ⟨hdec, (exists_decode_eq_instr_iff _).mp ⟨i, hdec⟩⟩
  · split
    next h => exact encodeNode_decodeNode_leaf h
    next h => exact encodeNode_decodeNode_internal (Bool.eq_false_of_not_eq_true h)

end Sys2Proof

namespace Sys2Proof.Machine

variable {P : Params}

/-! ### The node word on the host port -/

theorem hostReply_nodeRead {b : Block P.cw} (hr : b.runState ≠ .run) (h : Handle) (draw : Nat) :
    hostReply P (.nodeRead h) b draw = some (.node (nodeReadWord (nodeAt b h))) := by
  rw [hostReply, if_neg hr]

/-- Outside RUN a NodeWrite stores the decoded word at its handle and keeps every other entry (R135). -/
theorem nodeAt_nodeWrite {b : Block P.cw} (hr : b.runState ≠ .run) (h : Handle) (w : NodeWord)
    (k : Handle) : nodeAt (hostEffect P (.nodeWrite h w) b) k =
      if k = h then some (decodeNode w) else nodeAt b k := by
  rw [hostEffect_nodeWrite hr, nodeAt_writeNode]

/-- A NodeRead right after a NodeWrite returns the valid word of the decoded entry (R85). -/
theorem hostReply_nodeRead_nodeWrite {b : Block P.cw} (hr : b.runState ≠ .run) (h : Handle)
    (w : NodeWord) (draw : Nat) :
    hostReply P (.nodeRead h) (hostEffect P (.nodeWrite h w) b) draw =
      some (.node (nodeReadWord (some (decodeNode w)))) := by
  have hr' : (hostEffect P (.nodeWrite h w) b).runState ≠ .run := by
    rwa [hostEffect_nodeWrite hr, writeNode_runState]
  rw [hostReply_nodeRead hr', nodeAt_nodeWrite hr, if_pos rfl]

@[simp] theorem storeReg_node {cw : Nat} (b : Block cw) (n : Nat) (v : BitVec cw) :
    (storeReg b n v).node = b.node := by unfold storeReg; split <;> rfl

/-- A register write, START included, leaves NODE alone (R131, R134). -/
theorem nodeAt_regWrite (b : Block P.cw) (n : Nat) (v : BitVec P.cw) (h : Handle) :
    nodeAt (hostEffect P (.regWrite n v) b) h = nodeAt b h := by
  by_cases hr : b.runState = .run
  · rw [hostEffect_of_run (op := .regWrite n v) hr nofun]
  by_cases hn : n = 0
  · subst hn
    cases hv : v.getLsbD 0 with
    | true => rw [hostEffect_start hr hv]; exact (sameInputs_startRun b).nodeAt h
    | false => rw [hostEffect_noCommand hv]
  · rw [hostEffect_regWrite hr hn]; exact nodeAt_congr (storeReg_node b n v) h

/-- No host operation but RESET makes a valid entry invalid (R85). -/
theorem nodeAt_hostEffect_ne_none {op : HostOp P.cw} {b : Block P.cw} {h : Handle} (ho : op ≠ .reset)
    (hv : nodeAt b h ≠ none) : nodeAt (hostEffect P op b) h ≠ none := by
  by_cases hr : b.runState = .run
  · rwa [hostEffect_of_run hr ho]
  cases op with
  | reset => exact absurd rfl ho
  | regRead n => exact hv
  | nodeRead x => exact hv
  | payRead i => exact hv
  | outRead i => exact hv
  | regWrite n v => rwa [nodeAt_regWrite]
  | payWrite i B =>
    rcases Nat.lt_or_ge i P.payCap with hi | hi
    · rwa [hostEffect_payWrite hr hi, nodeAt_congr (writePay_node b i B)]
    · rwa [hostEffect_payWrite_beyond hi]
  | nodeWrite x w =>
    rw [nodeAt_nodeWrite hr]
    split
    · nofun
    · exact hv

/-- Settles O4: a NodeWrite stores the decoded word, a NodeRead returns the entry's word with the valid
flag in front, and of the host's operations only RESET empties NODE. -/
theorem nodeWordsOnTheHostPort : Obligations.NodeWordsOnTheHostPort := by
  refine ⟨fun P b h draw hr => ⟨fun hn => ?_, fun s hn => ?_, fun l r hn => ?_⟩,
    fun P b h w draw hr => ⟨fun hw => ?_, fun hw => ?_, fun k hk => ?_⟩,
    fun P op b h => nodeAt_hostEffect_ne_none, fun P b h => rfl⟩
  · rw [hostReply_nodeRead hr, hn]; rfl
  · rw [hostReply_nodeRead hr, hn, nodeReadWord_leaf]
  · rw [hostReply_nodeRead hr, hn, nodeReadWord_internal]
  · have hdec : decodeNode w = .leaf (w.extractLsb' 0 8) := if_pos hw
    rw [hostReply_nodeRead_nodeWrite hr, nodeAt_nodeWrite hr, if_pos rfl, hdec, nodeReadWord_leaf]
    exact ⟨rfl, rfl⟩
  · have hdec : decodeNode w = .internal (w.extractLsb' 9 9) (w.extractLsb' 0 9) := by
      rw [decodeNode, hw]; rfl
    have hread : nodeReadWord (some (decodeNode w)) = BitVec.ofNat 20 (0x80000 + w.toNat) := by
      rw [nodeReadWord, encodeNode_decodeNode_internal hw]
    rw [hostReply_nodeRead_nodeWrite hr, nodeAt_nodeWrite hr, if_pos rfl, hread, hdec]
    exact ⟨rfl, rfl⟩
  · rw [nodeAt_nodeWrite hr, if_neg hk]

/-! ### The STATUS word -/

/-- In a legal block ERR is NONE outside ERROR (R39 (a)). -/
theorem Legal.err_eq_none {b : Block P.cw} (h : Legal P b) (hr : b.runState ≠ .error) :
    b.err = .none := not_not.mp (mt h.err_iff.mp hr)

/-- Settles O23: STATE and ERR give the word, and in a legal block only ERROR has an ERR that is not NONE;
for the six values, the block of reset, its runs of 1 and of 0 symbols, and its three errors. -/
theorem statusHasSixValues : Obligations.StatusHasSixValues := by
  refine ⟨fun P b hcw hl => ?_, ?_⟩
  · have hread : ∀ s e, b.runState = s → b.err = e →
        (regRead b 1).toNat = s.code.toNat + 16 * e.code.toNat := by
      rintro _ _ rfl rfl
      exact statusWord_toNat b hcw
    have hquiet : ∀ s, s ≠ .error → b.runState = s →
        (regRead b 1).toNat = s.code.toNat + 16 * ErrCode.none.code.toNat :=
      fun s hne hs => hread s .none hs (hl.err_eq_none (hs ▸ hne))
    refine ⟨hquiet .idle nofun, hquiet .run nofun, hquiet .done nofun,
      fun hs => ⟨hread _ _ hs, hread _ _ hs, hread _ _ hs⟩, ?_⟩
    cases hs : b.runState with
    | idle => rw [hquiet .idle nofun hs]; decide
    | run => rw [hquiet .run nofun hs]; decide
    | done => rw [hquiet .done nofun hs]; decide
    | error =>
      cases he : b.err with
      | none => exact absurd he (hl.err_iff.mpr hs)
      | trunc => rw [hread _ _ hs he]; decide
      | tree => rw [hread _ _ hs he]; decide
      | alloc => rw [hread _ _ hs he]; decide
  · have hreset := legal_reset Config.params 0
    simp only [List.forall_mem_cons]
    exact ⟨⟨_, hreset, rfl⟩, ⟨_, legal_startRun (legal_storeReg hreset nofun 3 1), rfl⟩,
      ⟨_, legal_startRun hreset, rfl⟩, ⟨_, legal_raise hreset (e := .trunc) nofun, rfl⟩,
      ⟨_, legal_raise hreset (e := .tree) nofun, rfl⟩,
      ⟨_, legal_raise hreset (e := .alloc) nofun, rfl⟩, nofun⟩

/-! ### The command word -/

/-- A command word with bit 0 set is START in every state: in RUN both change nothing (R132). -/
theorem hostEffect_command {v : BitVec P.cw} (b : Block P.cw) (hv : v.getLsbD 0 = true) :
    hostEffect P (.regWrite 0 v) b = startRun P b := by
  by_cases hr : b.runState = .run
  · rw [hostEffect_of_run (op := .regWrite 0 v) hr nofun, startRun_of_run hr]
  · exact hostEffect_start hr hv

/-- Settles O8: the host's turn gives the block the effect of the command word, which is START's or none,
and a write returns nothing and draws nothing. -/
theorem stepRunsTheCommandWord : Obligations.StepRunsTheCommandWord := by
  intro s v rest hturn
  rw [step_of_host hturn]
  refine ⟨fun hv => ?_, fun hv => ?_⟩
  · rw [hostEffect_command _ hv]; rfl
  · rw [hostEffect_noCommand hv]; rfl

namespace Codec

/-! ### The lengths of codes -/

/-- A code has at least 1 bit, and fewer bits than there are symbols unless there is one symbol only
(R95, R159). -/
theorem code_length_bounds {syms : List Byte} {B : Built} {T : Tree} (hG : BuiltTree syms B T)
    {p : Byte × List Bool} (hp : p ∈ codes B) :
    1 ≤ p.2.length ∧ p.2.length ≤ max 1 (syms.length - 1) := by
  refine ⟨codeword_pos (codes_codeword hG hp), ?_⟩
  rw [codes_eq hG] at hp
  cases T with
  | leaf s =>
    obtain rfl := List.mem_singleton.mp hp
    exact le_max_left _ _
  | node l r =>
    obtain ⟨w, hw, -, hle⟩ := treeCodes_walk _ _ _ hp
    have hlt := height_lt_leaves (.node l r)
    rw [hG.perm.length_eq] at hlt
    rw [hw, List.nil_append]
    omega

/-- Codes of `lo` to `hi` bits encode an input in `lo` to `hi` bits per byte. -/
theorem encodeBits_length_bounds {ct : CodeTable} {X : List Byte} {lo hi : Nat}
    (h : ∀ x ∈ X, lo ≤ (codeOf ct x).length ∧ (codeOf ct x).length ≤ hi) :
    X.length * lo ≤ (encodeBits ct X).length ∧ (encodeBits ct X).length ≤ X.length * hi := by
  rw [encodeBits, List.length_flatMap]
  constructor
  · simpa using List.card_nsmul_le_sum (X.map fun x => (codeOf ct x).length) lo
      (List.forall_mem_map.mpr fun x hx => (h x hx).1)
  · simpa using List.sum_le_card_nsmul (X.map fun x => (codeOf ct x).length) hi
      (List.forall_mem_map.mpr fun x hx => (h x hx).2)

/-- Settles O42: the tree of the `n` distinct values has depth at most `n - 1`, and `n` is at most 256. -/
theorem codeLengthsAreBounded : Obligations.CodeLengthsAreBounded := by
  intro X B hB
  obtain ⟨T, hG⟩ := build_freq hB
  have hn : (present (freq X)).length = X.dedup.length := (present_perm_dedup X).length_eq
  have h256 := present_length_le (freq X)
  have hcode : ∀ p ∈ codes B, 1 ≤ p.2.length ∧ p.2.length ≤ max 1 (X.dedup.length - 1) ∧
      p.2.length ≤ 255 := fun p hp => by
    obtain ⟨hpos, hle⟩ := code_length_bounds hG hp
    rw [hn] at hle
    exact ⟨hpos, hle, by omega⟩
  obtain ⟨hlo, hhi⟩ := encodeBits_length_bounds (ct := codes B) (X := X) (lo := 1) (hi := 255)
    fun x hx => by
      obtain ⟨hpos, -, hle⟩ := hcode _ (codeOf_mem hG (mem_present hx))
      exact ⟨hpos, hle⟩
  exact ⟨hcode, by omega, by omega⟩

/-! ### The checks of the header -/

section
variable {b : Block P.cw} {Z : List Byte}

/-- A buffer shorter than a header is an InvalidHeader (R163 step 1). -/
theorem decompress_of_short (h : Z.length < headerLen P) :
    decompress P b Z = .failed .invalidHeader := if_pos h

/-- A sum of frequencies that is not the count is an InvalidHeader (R163 step 3), however long the buffer. -/
theorem decompress_of_bad_sum (h : (headerTable P Z).sum ≠ headerCount P Z) :
    decompress P b Z = .failed .invalidHeader := by
  rcases Nat.lt_or_ge Z.length (headerLen P) with hlen | hlen
  · exact decompress_of_short hlen
  · rw [decompress, if_neg (Nat.not_lt.mpr hlen), if_pos h]

/-- A whole header with sum and count 0 is that of the empty buffer (R163 step 4). -/
theorem decompress_of_zero_count (hlen : headerLen P ≤ Z.length) (hcount : headerCount P Z = 0)
    (hsum : (headerTable P Z).sum = 0) : decompress P b Z = .ok [] := by
  rw [decompress, if_neg (Nat.not_lt.mpr hlen), if_neg (not_not.mpr (hsum.trans hcount.symm)),
    if_pos hcount]

end

/-- Settles O43: the tests of R163 in their order. -/
theorem headerChecks : Obligations.HeaderChecks := by
  intro P b Z
  rw [← show headerLen P = 257 * (P.cw / 8) from rfl]
  exact ⟨decompress_of_short, decompress_of_bad_sum, decompress_of_zero_count⟩

end Codec
end Sys2Proof.Machine
end

section
/-! SUPPORT. The TreeWalk step, settled: what the engine's move is in and outside RUN (R110, R111), where DL
and DR go and what they raise (R112 to R118), what begins a run (R131), and how a run advances, ends and
decodes (R116, R117, R120, R121). -/

namespace Sys2Proof.Machine

variable {cw : Nat} {P : Params}

/-! ### The engine's move -/

theorem engineStep_of_fetch {b : Block P.cw} {i : Instr} (hr : b.runState = .run)
    (hf : fetch P b = .instr i) : engineStep P b = execBlock P i b := by
  rw [engineStep, if_pos hr, hf]

theorem engineStep_of_error {b : Block P.cw} {e : ErrCode} (hr : b.runState = .run)
    (ht : fetchTest b = .error e) : engineStep P b = .next (raiseError e b) := by
  rw [engineStep_of_run hr, ht]

/-- Settles O7: the fetch gives the instruction of the bit, and the step does to the block what that
instruction does. -/
theorem stepRunsTheFetchedInstruction : Obligations.StepRunsTheFetchedInstruction := by
  intro s hm hr hp hc hn
  obtain ⟨e, he⟩ := Option.ne_none_iff_exists'.mp hn
  have hf := fetch_of_entry (fetchTest_of_valid hp he) hc
  rw [step_of_engineMoves hm, engineStep_of_fetch hr hf, exec_eq]
  rfl

/-- Settles O14: the first test of the fetch that fails gives the error the step raises. -/
theorem fetchErrorsStopTheRun : Obligations.FetchErrorsStopTheRun := by
  intro s hm hr
  rw [step_of_engineMoves hm]
  refine ⟨fun hp => ?_, fun hp hn => ?_⟩
  · rw [engineStep_of_error hr (fetchTest_of_exhausted hp)]; rfl
  · rw [engineStep_of_error hr (fetchTest_of_invalid hp hn)]; rfl

/-- Settles O15: outside RUN neither a descent nor the engine's step changes the block. -/
theorem engineRestsOutsideRun : Obligations.EngineRestsOutsideRun := by
  intro s hr
  have hwalk : ∀ d, descend Config.params d s.toBlock = .next s.toBlock := fun _ => descend_of_not_run hr
  refine ⟨?_, ?_, fun hm => ?_⟩
  · rw [exec_eq, execBlock, hwalk]; rfl
  · rw [exec_eq, execBlock, hwalk]; rfl
  · rw [step_of_engineMoves hm, engineStep_of_not_run hr]; rfl

/-! ### DL and DR, for either value of the stream bit -/

theorem exec_streamBit (bit : Bool) (s : State) :
    exec (decodeStreamBit bit) s = onBlock s (descend Config.params (dirOf bit) s.toBlock) := by
  rw [exec_eq, execBlock_decodeStreamBit]

section
variable {s : State} (bit : Bool) (hr : s.runState = .run)
include hr

/-- DL and DR alike raise the error the tests of the fetch give (R111, R118). -/
theorem exec_of_fetchError {e : ErrCode} (ht : fetchTest s.toBlock = .error e) :
    exec (decodeStreamBit bit) s = .next (s.withBlock (raiseError e s.toBlock)) := by
  rw [exec_streamBit, descend_of_error hr ht, onBlock_next]

variable {e : NodeEntry} (hp : s.bytepos.toNat < s.paylen.toNat)
  (hn : nodeAt s.toBlock s.cur = some e)
include hp hn

/-- With the tests passed, DL and DR land on the child in their direction (R112, R113). -/
theorem exec_lands : exec (decodeStreamBit bit) s =
    onBlock s (land Config.params (childOf (dirOf bit) s.cur e) s.toBlock) := by
  rw [exec_streamBit, descend_of_entry hr (fetchTest_of_valid hp hn)]

theorem exec_of_invalidChild
    (hc : nodeAt s.toBlock (childOf (dirOf bit) s.cur e) = none) :
    exec (decodeStreamBit bit) s = .next (s.withBlock (raiseError .tree s.toBlock)) := by
  rw [exec_lands bit hr hp hn, land_of_invalid hc, onBlock_next]

theorem exec_of_internalChild {l r : Handle}
    (hc : nodeAt s.toBlock (childOf (dirOf bit) s.cur e) = some (.internal l r)) :
    exec (decodeStreamBit bit) s = .next { s with
      cur := childOf (dirOf bit) s.cur e
      bytepos := if s.bitidx = 7 then s.bytepos + 1 else s.bytepos
      bitidx := if s.bitidx = 7 then 0 else s.bitidx + 1 } := by
  rw [exec_lands bit hr hp hn, land_of_internal hc, onBlock_next, State.At.withBlock, advancePc]
  split <;> rfl

theorem exec_of_leafChild {sym : Byte} (ho : s.emitted.toNat < Config.params.outCap)
    (hc : nodeAt s.toBlock (childOf (dirOf bit) s.cur e) = some (.leaf sym)) :
    exec (decodeStreamBit bit) s = .next { s with
      out := Memory.write s.out s.emitted.toNat sym
      emitted := s.emitted + 1
      cur := s.root
      bytepos := if s.bitidx = 7 then s.bytepos + 1 else s.bytepos
      bitidx := if s.bitidx = 7 then 0 else s.bitidx + 1
      runState := if s.emitted + 1 = s.symcount then .done else .run } := by
  rw [exec_lands bit hr hp hn, land_of_leaf hc, emit_advancePc hr ho]
  rfl

end

/-- Settles O10: the child of an internal node is the left one for DL and the right one for DR. -/
theorem descendToInternalChild : Obligations.DescendToInternalChild :=
  fun _ _ _ _ _ hr hp hn =>
    ⟨exec_of_internalChild false hr hp hn, exec_of_internalChild true hr hp hn⟩

/-- Settles O11: landing on a leaf emits, and of OUT only the byte at EMITTED is written. -/
theorem descendToLeafEmits : Obligations.DescendToLeafEmits := by
  intro s l r sym hr hp ho hn t
  have hout : ∀ i, outAt t.toBlock i = if i = s.emitted.toNat then sym else outAt s.toBlock i :=
    fun i => outAt_writeOut s.toBlock s.emitted.toNat i sym
  exact ⟨exec_of_leafChild false hr hp hn ho, exec_of_leafChild true hr hp hn ho,
    by rw [hout, if_pos rfl], fun i hi => by rw [hout, if_neg hi]⟩

/-- Settles O12: at a leaf the child in either direction is the node itself, and landing there emits. -/
theorem rootLeafConsumesOneBit : Obligations.RootLeafConsumesOneBit := by
  intro s sym hr hp ho hn
  have hdl := exec_of_leafChild false hr hp hn ho hn
  have hdr := exec_of_leafChild true hr hp hn ho hn
  refine ⟨hdl.trans hdr.symm, _, hdr, ?_, rfl, rfl, fun h7 => ⟨if_pos h7, if_pos h7⟩,
    fun h7 => ⟨if_neg h7, if_neg h7⟩, fun h => if_pos h, fun h => if_neg h⟩
  exact (outAt_writeOut s.toBlock s.emitted.toNat _ sym).trans (if_pos rfl)

/-- Settles O13: the tests of the fetch in their order, then the test of the child. -/
theorem walkErrorsArePrecise : Obligations.WalkErrorsArePrecise := by
  intro s hr
  refine ⟨fun hp => ?_, fun hp => ⟨fun hn => ?_, fun l r hn => ?_⟩⟩
  · have ht := fetchTest_of_exhausted hp
    exact ⟨exec_of_fetchError false hr ht, exec_of_fetchError true hr ht⟩
  · have ht := fetchTest_of_invalid hp hn
    exact ⟨exec_of_fetchError false hr ht, exec_of_fetchError true hr ht⟩
  · exact ⟨exec_of_invalidChild false hr hp hn, exec_of_invalidChild true hr hp hn⟩

/-! ### What begins a run -/

theorem Block.ended.not_run {b : Block cw} (h : b.ended) : b.runState ≠ .run := by
  rcases h with h | h <;> simp [h]

/-- Outside RUN, START either has the counts to begin a run or ends it at once (R131). -/
theorem startable_or_startRun_ended {b : Block P.cw} (hr : b.runState ≠ .run) :
    Startable P b ∨ (startRun P b).ended := by
  rcases startRun_cases b with ⟨h, -⟩ | ⟨-, -, e⟩ | ⟨-, -, -, -, e⟩ | ⟨-, ho, hp, hz, -⟩
  · exact absurd h hr
  · exact .inr (.inr (by rw [e]; rfl))
  · exact .inr (.inl (by rw [e]))
  · exact .inl ⟨hr, hz, ho, hp⟩

/-- A host operation that makes a block run is a command word with bit 0 set, and its START begins a run
(R132, R134). -/
theorem hostEffect_begins_run {op : HostOp P.cw} {b : Block P.cw} (hr : b.runState ≠ .run)
    (h : (hostEffect P op b).runState = .run) :
    (∃ v, op = .regWrite 0 v ∧ v.getLsbD 0 = true) ∧ (startRun P b).runState = .run := by
  cases op with
  | regRead n => exact absurd h hr
  | nodeRead x => exact absurd h hr
  | payRead i => exact absurd h hr
  | outRead i => exact absurd h hr
  | reset => exact absurd h nofun
  | nodeWrite x w => rw [hostEffect_nodeWrite hr] at h; exact absurd h hr
  | payWrite i B =>
    rcases Nat.lt_or_ge i P.payCap with hi | hi
    · rw [hostEffect_payWrite hr hi] at h; exact absurd h hr
    · rw [hostEffect_payWrite_beyond hi] at h; exact absurd h hr
  | regWrite n v =>
    by_cases hn : n = 0
    · subst hn
      cases hv : v.getLsbD 0 with
      | true => exact ⟨⟨v, rfl, hv⟩, by rwa [hostEffect_start hr hv] at h⟩
      | false => rw [hostEffect_noCommand hv] at h; exact absurd h hr
    · rw [hostEffect_regWrite hr hn, storeReg_runState] at h; exact absurd h hr

/-- Settles O20: only START makes a block run, and START with other counts ends at once. -/
theorem onlyStartBeginsARun : Obligations.OnlyStartBeginsARun := by
  refine fun P b hr => ⟨engineStep_of_not_run hr, fun op h => ?_⟩
  obtain ⟨hop, hrun⟩ := hostEffect_begins_run hr h
  obtain ⟨-, hcounts⟩ := (startable_or_startRun_ended hr).resolve_right fun he => he.not_run hrun
  exact ⟨hop, hcounts⟩

/-! ### The pc of one step -/

/-- A step in RUN that answers a next block leaves the pc alone and ends with an error, or it had a byte
left, and advances the pc by the rule of `advancePc` (R117, R118). -/
theorem engineStep_pc {b b' : Block P.cw} (hr : b.runState = .run) (h : engineStep P b = .next b') :
    (b'.runState = .error ∧ b'.bytepos = b.bytepos ∧ b'.bitidx = b.bitidx) ∨
    (b'.runState ≠ .error ∧ b.bytepos.toNat < b.paylen.toNat ∧ b'.paylen = b.paylen ∧
      b'.bytepos = (advancePc b).bytepos ∧ b'.bitidx = (advancePc b).bitidx) := by
  rcases engineStep_cases hr with ⟨-, hs⟩ | ⟨-, -, hs⟩ | ⟨e, hp, -, hs⟩
  · exact .inl (Host.Outcome.next.inj (hs.symm.trans h) ▸ ⟨rfl, rfl, rfl⟩)
  · exact .inl (Host.Outcome.next.inj (hs.symm.trans h) ▸ ⟨rfl, rfl, rfl⟩)
  · rw [hs] at h
    split at h
    · rcases land_cases hr h with ⟨-, rfl⟩ | ⟨l, r, -, rfl⟩ | ⟨sym, -, -, rfl⟩
      · exact .inl ⟨rfl, rfl, rfl⟩
      · exact .inr ⟨by simp [hr], hp, advancePc_paylen b, rfl, rfl⟩
      · exact .inr ⟨by dsimp only; split <;> nofun, hp, rfl, (advancePc_bytepos b).symm,
          (advancePc_bitidx b).symm⟩
    · cases h

/-- Settles O33: inside the payload BYTEPOS has room for the increment of `advancePc`. -/
theorem pcAdvancesByOneBit : Obligations.PcAdvancesByOneBit := by
  intro P b b' _ hr hs
  rcases engineStep_pc hr hs with ⟨he, hbyte, hbit⟩ | ⟨hne, hp, hpay, hbyte, hbit⟩
  · exact ⟨fun hne => absurd he hne, fun _ => ⟨hbyte, hbit⟩⟩
  · have hpos := bitpos_advancePc b (by have := b.paylen.isLt; omega)
    obtain ⟨hle, -⟩ := advancePc_bounds hp
    rw [bitpos, bitpos, ← hbyte, ← hbit] at hpos
    rw [← hbyte, ← hpay] at hle
    rw [advancePc_bytepos] at hbyte
    rw [advancePc_bitidx] at hbit
    refine ⟨fun _ => ⟨fun h7 => ?_, fun h7 => ?_, hpos, hle⟩, fun he => absurd he hne⟩
    · rw [if_pos h7] at hbyte hbit
      exact ⟨hbit, by rw [hbyte, toNat_succ_of_lt hp]⟩
    · rw [if_neg h7] at hbyte
      exact ⟨by rw [hbyte] at hpos; omega, hbyte⟩

/-! ### The steps of a run -/

/-- A block whose run is over stays as it is however many steps follow. -/
theorem runEngine_le {j k : Nat} {b c : Block P.cw} (hjk : j ≤ k) (h : runEngine P j b = .next c)
    (hr : c.runState ≠ .run) : runEngine P k b = .next c := by
  obtain ⟨i, rfl⟩ := Nat.exists_eq_add_of_le hjk
  rw [runEngine_add h, runEngine_of_not_run hr]

section
variable {b : Block P.cw} (hb : Startable P b)
include hb

/-- A run never stops with a fault: it answers a block after any number of steps. -/
theorem runEngine_startRun_next (k : Nat) : ∃ c, runEngine P k (startRun P b) = .next c := by
  induction k with
  | zero => exact ⟨_, rfl⟩
  | succ k ih =>
    obtain ⟨c, hc⟩ := ih
    obtain ⟨hrun, -⟩ := RunOf.of_runEngine hb k c hc
    rcases hrun.status with hr | he
    · obtain ⟨c', hs, -⟩ := hrun.step hb hr
      exact ⟨c', (runEngine_add hc 1).trans (runEngine_succ_next hs)⟩
    · exact ⟨c, runEngine_le k.le_succ hc he.not_run⟩

/-- After the steps of R120 a run is over: in RUN its pc would lie beyond the payload. -/
theorem runEngine_startRun_ended :
    ∃ c, runEngine P (8 * b.paylen.toNat + 1) (startRun P b) = .next c ∧ c.ended := by
  obtain ⟨c, hc⟩ := runEngine_startRun_next hb (8 * b.paylen.toNat + 1)
  obtain ⟨hrun, -, hpos⟩ := RunOf.of_runEngine hb _ c hc
  refine ⟨c, hc, hrun.status.resolve_left fun hr => ?_⟩
  have := hpos hr
  have := hrun.bitpos_le
  omega

end

/-- A pc at the end of the payload's bits has no byte left. -/
theorem RunOf.bytepos_eq_paylen {b c : Block P.cw} (h : RunOf P b c)
    (hpos : bitpos c = 8 * b.paylen.toNat) : c.bytepos = c.paylen := by
  have := h.bytepos_le
  have := c.bitidx.isLt
  rw [← h.paylen, bitpos] at hpos
  exact BitVec.eq_of_toNat_eq (by omega)

/-- Settles O35: START ends at once or begins a run, and each step of a run moves on by one bit or ends
it. -/
theorem everyRunEnds : Obligations.EveryRunEnds := by
  intro P b hr
  rcases startable_or_startRun_ended hr with hb | hend
  · obtain ⟨c, hc, hend⟩ := runEngine_startRun_ended hb
    refine ⟨⟨_, c, le_rfl, hc, hend⟩, fun k c c' hc hrun hs => ?_⟩
    obtain ⟨hR, -⟩ := RunOf.of_runEngine hb k c hc
    obtain ⟨d, hd, -, hstep⟩ := hR.step hb hrun
    obtain rfl : d = c' := Host.Outcome.next.inj (hd.symm.trans hs)
    rcases hstep with ⟨herr, htrunc⟩ | ⟨-, hlt, hpos⟩
    · exact ⟨fun h => absurd (herr.symm.trans h) nofun, fun h =>
        ⟨herr, htrunc (hR.bytepos_eq_paylen h)⟩⟩
    · exact ⟨fun _ => hpos, fun h => absurd (congrArg BitVec.toNat (hR.bytepos_eq_paylen h)) hlt.ne⟩
  · refine ⟨⟨0, _, Nat.zero_le _, rfl, hend⟩, fun k c c' hc hrun => ?_⟩
    rw [runEngine_of_not_run hend.not_run] at hc
    obtain rfl := Host.Outcome.next.inj hc
    exact absurd hrun hend.not_run

/-! ### A whole run from START -/

section
variable {b : Block P.cw} (hb : Startable P b) {T : Tree} (hT : treeAt b b.root T)
include hb hT

/-- Where the stream bits decode, the run takes one step per bit up to its last codeword's end, and is DONE
there with the symbols in OUT. -/
theorem startRun_decodes {xs : List Byte} {rest : List Bool}
    (hd : decRest T b.symcount.toNat (streamBits b) = some (xs, rest)) :
    ∃ c, RunOf P b c ∧ runEngine P (bitpos c) (startRun P b) = .next c ∧
      rest = bitsFrom b (bitpos c) ∧ c.runState = .done ∧ c.emitted = c.symcount ∧ c.cur = c.root ∧
      outBytes c b.symcount.toNat = xs := by
  obtain ⟨hrun, hstate, hpos, hcur, hcount, -⟩ := startRun_runOf hb
  have hsym := hrun.symcount
  obtain ⟨c, hc, hsteps, -, hrest, hdone, hem, hroot, hout⟩ :=
    (RunOf.decodes hb hT b.symcount.toNat _ hrun hstate hcur (by rw [hsym, hcount]; simp)).1 xs rest
      (by rwa [hpos, bitsFrom_zero])
  rw [hpos, Nat.sub_zero] at hsteps
  exact ⟨c, hc, hsteps, hrest, hdone, hem, hroot, by simpa [hsym, hcount, outBytes] using hout⟩

/-- Where the stream bits are truncated, the run has raised TRUNC after the steps of R120. -/
theorem startRun_truncates (hd : decRest T b.symcount.toNat (streamBits b) = none) :
    ∃ c, runEngine P (8 * b.paylen.toNat + 1) (startRun P b) = .next c ∧ c.runState = .error ∧
      c.err = .trunc := by
  obtain ⟨hrun, hstate, hpos, hcur, hcount, -⟩ := startRun_runOf hb
  obtain ⟨j, c, hj, hc, herr, htrunc⟩ :=
    (RunOf.decodes hb hT b.symcount.toNat _ hrun hstate hcur
      (by rw [hrun.symcount, hcount]; simp)).2 (by rwa [hpos, bitsFrom_zero])
  exact ⟨c, runEngine_le (by omega) hc (by simp [herr]), herr, htrunc⟩

end

/-- Settles O36: the run follows `decRest`, which is `dec` with the bits left over. -/
theorem runDecodesTheTree : Obligations.RunDecodesTheTree := by
  refine ⟨fun P b T hb hT => ?_, fun T ws rest h => ?_⟩
  · rw [dec_eq_decRest]
    cases hd : decRest T b.symcount.toNat (streamBits b) with
    | none =>
      obtain ⟨c, hc, herr⟩ := startRun_truncates hb hT hd
      exact ⟨c, hc, nofun, fun _ => herr⟩
    | some p =>
      obtain ⟨c, hc, hdone, hout⟩ := runEngine_of_decRest hb hT hd
      exact ⟨c, hc, fun xs h => ⟨hdone, hout.trans (Option.some.inj h)⟩, nofun⟩
  · rw [dec_eq_decRest, decRest_codewords T ws rest h]
    rfl

/-- A run that has reached bit `n` in `n` steps was in RUN at every bit before. -/
theorem running_before {b c : Block P.cw} (hb : Startable P b)
    (hc : runEngine P (bitpos c) (startRun P b) = .next c) {k : Nat} (hk : k < bitpos c) :
    ∃ d, runEngine P k (startRun P b) = .next d ∧ d.runState = .run ∧ bitpos d = k := by
  obtain ⟨d, hd⟩ := runEngine_startRun_next hb k
  obtain ⟨hrun, hle, hpos⟩ := RunOf.of_runEngine hb k d hd
  rcases hrun.status with hr | he
  · exact ⟨d, hd, hr, hpos hr⟩
  · have hdc : d = c :=
      Host.Outcome.next.inj ((runEngine_le hk.le hd he.not_run).symm.trans hc)
    rw [hdc] at hle
    omega

/-- Settles O37: the bits left over are those after the codewords, so the pc stands at their end. -/
theorem successfulRunTakesOneStepPerBit : Obligations.SuccessfulRunTakesOneStepPerBit := by
  intro P b T ws rest hb hT hws hlen hbits
  have hdec := decRest_codewords T ws rest hws
  rw [← hbits, hlen] at hdec
  obtain ⟨c, hR, hc, hrest, hdone, hem, hcur, hout⟩ := startRun_decodes hb hT hdec
  have hpos : bitpos c = (ws.map Prod.fst).flatten.length := by
    have htotal := congrArg List.length hbits
    have hle := hR.bitpos_le
    rw [← bitsFrom_zero, bitsFrom_length, List.length_append, hrest, bitsFrom_length] at htotal
    omega
  rw [← hpos, hlen]
  exact ⟨fun k hk => running_before hb hc hk, c, hc, hdone, rfl, hem, hcur, hout⟩

end Sys2Proof.Machine
end

section
/-! SUPPORT. The host commands, settled: what each operation does in one step and returns (R130, R137 to
R139, U1), START and the register writes (R131, R132, R134), and what a run depends on: its inputs at START
(R131 (b), R203), and not on the host's moves between its steps (R62, R142). -/

namespace Sys2Proof.Machine

variable {cw : Nat} {P : Params}

/-! ### What a run depends on -/

/-- `d` holds what a run from `b` reads: the configuration registers, NODE, and PAY below PAYLEN, the
bytes nothing has written included. Weaker than `SameInputs`: the lists and the epoch may differ. -/
structure SameRunInputs (b d : Block cw) : Prop where
  root : d.root = b.root
  symcount : d.symcount = b.symcount
  paylen : d.paylen = b.paylen
  node : ∀ h, nodeAt d h = nodeAt b h
  pay : ∀ i, i < b.paylen.toNat → payAt d i = payAt b i

/-- What a run reads it does not change, so blocks of two runs from the same inputs hold them still. -/
theorem SameRunInputs.of_runOf {b d c e : Block P.cw} (h : SameRunInputs b d) (hc : RunOf P b c)
    (he : RunOf P d e) : SameRunInputs c e where
  root := by rw [he.root, h.root, hc.root]
  symcount := by rw [he.symcount, h.symcount, hc.symcount]
  paylen := by rw [he.paylen, h.paylen, hc.paylen]
  node x := by rw [nodeAt_congr he.node, h.node, nodeAt_congr hc.node]
  pay i hi := by
    rw [hc.paylen] at hi
    rw [payAt_congr he.pay he.epoch, h.pay i hi, payAt_congr hc.pay hc.epoch]

theorem SameRunInputs.startable {b d : Block P.cw} (h : SameRunInputs b d) (hb : Startable P b)
    (hd : d.runState ≠ .run) : Startable P d := by
  obtain ⟨-, hz, ho, hp⟩ := hb
  exact ⟨hd, h.symcount ▸ hz, h.symcount ▸ ho, h.paylen ▸ hp⟩

/-- `c` and `e` stand at the same point of a run and have emitted the same symbols. -/
structure RunsAlike (c e : Block cw) : Prop where
  runState : e.runState = c.runState
  err : e.err = c.err
  cur : e.cur = c.cur
  emitted : e.emitted = c.emitted
  bytepos : e.bytepos = c.bytepos
  bitidx : e.bitidx = c.bitidx
  out : ∀ i, i < c.emitted.toNat → outAt e i = outAt c i

theorem runsAlike_startRun {b d : Block P.cw} (hin : SameRunInputs b d) (hb : Startable P b)
    (hd : Startable P d) : RunsAlike (startRun P b) (startRun P d) := by
  obtain ⟨hbr, hbz, hbo, hbp⟩ := hb
  obtain ⟨hdr, hdz, hdo, hdp⟩ := hd
  rw [startRun_of_count hbr hbo hbp hbz, startRun_of_count hdr hdo hdp hdz]
  exact ⟨rfl, rfl, hin.root, rfl, rfl, rfl, fun i hi => absurd hi (by simp)⟩

section
variable {c e : Block P.cw} (h : RunsAlike c e)
include h

theorem RunsAlike.raiseError (x : ErrCode) : RunsAlike (raiseError x c) (raiseError x e) :=
  { h with runState := rfl, err := rfl }

theorem RunsAlike.moveTo (nxt : Handle) :
    RunsAlike { advancePc c with cur := nxt } { advancePc e with cur := nxt } where
  runState := by simpa using h.runState
  err := by simpa using h.err
  cur := rfl
  emitted := by simpa using h.emitted
  bytepos := by simp only [advancePc_bytepos, h.bytepos, h.bitidx]
  bitidx := by simp only [advancePc_bitidx, h.bitidx]
  out i hi := by
    rw [advancePc_emitted] at hi
    simpa [outAt] using h.out i hi

variable (hin : SameRunInputs c e)
include hin

theorem RunsAlike.fetchTest : fetchTest e = fetchTest c := by
  simp only [Machine.fetchTest, hin.paylen, h.bytepos, h.cur, hin.node]

variable (hr : c.runState = .run) (hlt : c.emitted.toNat < c.symcount.toNat)
  (ho : c.emitted.toNat < P.outCap)
include hr hlt ho

/-- A symbol emitted from both is stored at the same place of OUT, just above those emitted before. -/
theorem RunsAlike.emit (sym : Byte) : ∃ c' e', emit P sym (advancePc c) = .next c' ∧
    emit P sym (advancePc e) = .next e' ∧ RunsAlike c' e' := by
  refine ⟨_, _, emit_advancePc hr ho, emit_advancePc (h.runState.trans hr) (h.emitted ▸ ho),
    by simp only [h.emitted, hin.symcount], h.err, hin.root, by simp only [h.emitted],
    by simp only [h.bytepos, h.bitidx], by simp only [h.bitidx], fun i hi => ?_⟩
  rw [toNat_succ_of_lt hlt] at hi
  calc outAt (writeOut e e.emitted.toNat sym) i
      = if i = c.emitted.toNat then sym else outAt e i := by rw [outAt_writeOut, h.emitted]
    _ = if i = c.emitted.toNat then sym else outAt c i := by
        split
        · rfl
        · exact h.out i (by omega)
    _ = outAt (writeOut c c.emitted.toNat sym) i := (outAt_writeOut ..).symm

theorem RunsAlike.land (nxt : Handle) : ∃ c' e', land P nxt c = .next c' ∧
    land P nxt e = .next e' ∧ RunsAlike c' e' := by
  have hnode := hin.node nxt
  match hn : nodeAt c nxt with
  | none => exact ⟨_, _, land_of_invalid hn, land_of_invalid (hnode.trans hn), h.raiseError _⟩
  | some (.internal l r) =>
    exact ⟨_, _, land_of_internal hn, land_of_internal (hnode.trans hn), h.moveTo nxt⟩
  | some (.leaf sym) =>
    rw [land_of_leaf hn, land_of_leaf (hnode.trans hn)]
    exact h.emit hin hr hlt ho sym

/-- One step from the same point with the same inputs: the same error, or a landing on the same node,
selected by a bit inside the payload. -/
theorem RunsAlike.engineStep (hpay : c.paylen.toNat ≤ P.payCap) :
    ∃ c' e', engineStep P c = .next c' ∧ engineStep P e = .next e' ∧ RunsAlike c' e' := by
  rw [engineStep_of_run hr, engineStep_of_run (h.runState.trans hr), h.fetchTest hin]
  rcases fetchTest_cases c with ⟨-, ht⟩ | ⟨-, -, ht⟩ | ⟨entry, hp, -, ht⟩ <;> rw [ht]
  · exact ⟨_, _, rfl, rfl, h.raiseError _⟩
  · exact ⟨_, _, rfl, rfl, h.raiseError _⟩
  · simp only [h.bytepos, h.bitidx, h.cur, hin.pay _ hp, if_pos (hp.trans_le hpay)]
    exact h.land hin hr hlt ho _

end

/-- Runs from the same inputs agree after any number of steps. -/
theorem runsAlike_runEngine {b d : Block P.cw} (hin : SameRunInputs b d) (hb : Startable P b)
    (hd : Startable P d) (k : Nat) : ∃ c e, runEngine P k (startRun P b) = .next c ∧
      runEngine P k (startRun P d) = .next e ∧ RunsAlike c e := by
  induction k with
  | zero => exact ⟨_, _, rfl, rfl, runsAlike_startRun hin hb hd⟩
  | succ k ih =>
    obtain ⟨c, e, hc, he, hce⟩ := ih
    obtain ⟨hC, -⟩ := RunOf.of_runEngine hb k c hc
    obtain ⟨hE, -⟩ := RunOf.of_runEngine hd k e he
    by_cases hr : c.runState = .run
    · obtain ⟨-, -, ho, hp⟩ := hb
      have hlt := hC.emitted_lt hr
      obtain ⟨c', e', hc', he', hce'⟩ := hce.engineStep (hin.of_runOf hC hE) hr hlt
        (hlt.trans_le (hC.symcount ▸ ho)) (hC.paylen ▸ hp)
      exact ⟨c', e', (runEngine_add hc 1).trans (runEngine_succ_next hc'),
        (runEngine_add he 1).trans (runEngine_succ_next he'), hce'⟩
    · exact ⟨c, e, runEngine_le k.le_succ hc hr, runEngine_le k.le_succ he (hce.runState ▸ hr), hce⟩

/-- Settles O38: two runs from the same inputs stand at the same point after every number of steps. -/
theorem runDependsOnItsInputsOnly : Obligations.RunDependsOnItsInputsOnly := by
  intro P b d hb hd hroot hsym hlen hnode hpay k
  have hin : SameRunInputs b d := ⟨hroot, hsym, hlen, hnode, hpay⟩
  obtain ⟨c, e, hc, he, h⟩ := runsAlike_runEngine hin hb (hin.startable hb hd) k
  exact ⟨c, e, hc, he, h.runState, h.err, h.cur, h.emitted, h.bytepos, h.bitidx,
    outBytes_congr _ h.out⟩

/-! ### The host's moves between the steps of a run -/

theorem runEngine_succ_eq_next {k : Nat} {b c : Block P.cw} (h : runEngine P (k + 1) b = .next c) :
    ∃ b', engineStep P b = .next b' ∧ runEngine P k b' = .next c := by
  rw [runEngine_succ] at h
  split at h
  next b' hs => exact ⟨b', hs, h⟩
  next => cases h
  next => cases h

/-- Only a block in RUN is in RUN after any number of steps (R110). -/
theorem run_of_runEngine_run {k : Nat} {b c : Block P.cw} (h : runEngine P k b = .next c)
    (hc : c.runState = .run) : b.runState = .run := by
  by_contra hb
  rw [runEngine_of_not_run hb] at h
  exact hb (Host.Outcome.next.inj h ▸ hc)

/-- The moves `pre` of a run, with no RESET among them, take its block where the engine's moves among them
alone take it: in RUN no other move of the host has an effect (R62). -/
theorem run_of_moves {pre rest : List (Turn P.cw)} {c : Block P.cw} (hreset : .host .reset ∉ pre)
    (hc : c.runState = .run) : ∀ {s : State.At P}, s.turns = pre ++ rest → s.runState = .run →
      runEngine P (pre.count .engine) s.toBlock = .next c →
      ∃ t : State.At P, (coreAt P).run pre.length s = .next t ∧ t.toBlock = c ∧ t.turns = rest := by
  induction pre with
  | nil => exact fun ht _ hrun => ⟨_, rfl, Host.Outcome.next.inj hrun, ht⟩
  | cons move pre ih =>
    intro s ht hr hrun
    obtain ⟨hne, htail⟩ := List.ne_and_not_mem_of_not_mem_cons hreset
    cases move with
    | engine =>
      rw [List.count_cons_self] at hrun
      obtain ⟨b, hs, hrun⟩ := runEngine_succ_eq_next hrun
      have hstep := stepAt_of_engine ht
      rw [hs, onBlock_next] at hstep
      obtain ⟨t, hrun', h⟩ := ih htail (s := { s with turns := pre ++ rest, toBlock := b }) rfl
        (run_of_runEngine_run hrun hc) hrun
      exact ⟨t, (core_run_succ (M := coreAt P) hstep).trans hrun', h⟩
    | host op =>
      have hop : op ≠ .reset := fun e => hne (e ▸ rfl)
      have hmove : Turn.host op ≠ .engine := nofun
      rw [List.count_cons_of_ne hmove] at hrun
      have hstep := stepAt_of_host ht
      rw [hostEffect_of_run hr hop] at hstep
      obtain ⟨t, hrun', h⟩ := ih htail (s := recordReply op { s with turns := pre ++ rest }) rfl hr hrun
      exact ⟨t, (core_run_succ (M := coreAt P) hstep).trans hrun', h⟩

/-- Settles O39: the moves of `pre` reach the block the engine's moves alone reach, and the engine's next
move is a step of that block. -/
theorem interleavingDoesNotMatter : Obligations.InterleavingDoesNotMatter := by
  intro P s pre rest c ht hreset hr hrun hc
  obtain ⟨t, hrun', rfl, hrest⟩ := run_of_moves hreset hc ht hr hrun
  refine ⟨⟨t, hrun', rfl, hrest⟩, fun b hnext hb => ?_⟩
  obtain ⟨d, hd, hstep⟩ := runEngine_prefix hb
  obtain rfl : d = t.toBlock := Host.Outcome.next.inj (hd.symm.trans hrun)
  have hmove : t.engineMoves := by rw [State.At.engineMoves, hrest]; exact hnext.symm
  have hlast := stepAt_of_engineMoves hmove
  rw [hstep, onBlock_next] at hlast
  exact ⟨_, (core_run_snoc (M := coreAt P) hrun').trans hlast, rfl, congrArg List.tail hrest⟩

/-! ### What the host's operations do and return -/

/-- A host operation draws a fresh value exactly when it reads a memory during RUN (U2). -/
theorem hostDraws_iff (op : HostOp cw) (b : Block cw) : hostDraws op b = true ↔
    b.runState = .run ∧ ((∃ h, op = .nodeRead h) ∨ (∃ i, op = .payRead i) ∨ ∃ i, op = .outRead i) := by
  cases op <;> simp [hostDraws]

/-- Settles O9: the host's turn answers its effect and its reply, and counts a draw where one is made. -/
theorem hostOperationsComplete : Obligations.HostOperationsComplete := by
  intro s op rest hturn
  have hdraws := hostDraws_iff op s.toBlock
  exact ⟨_, step_of_host hturn, rfl, rfl, rfl, fun h => if_pos (hdraws.mpr h),
    fun h => if_neg (mt hdraws.mp h)⟩

section
variable {b : Block P.cw} (hr : b.runState ≠ .run)
include hr

theorem hostReply_payRead (i draw : Nat) : hostReply P (.payRead i) b draw =
    some (.byte (if i < P.payCap then payAt b i else 0)) := by rw [hostReply, if_neg hr]

theorem hostReply_outRead (i draw : Nat) : hostReply P (.outRead i) b draw =
    some (.byte (if i < P.outCap then outAt b i else 0)) := by rw [hostReply, if_neg hr]

theorem hostReply_outRead_below {i : Nat} (hi : i < P.outCap) (draw : Nat) :
    hostReply P (.outRead i) b draw = some (.byte (outAt b i)) := by
  rw [hostReply_outRead hr, if_pos hi]

theorem hostReply_outRead_beyond {i : Nat} (hi : P.outCap ≤ i) (draw : Nat) :
    hostReply P (.outRead i) b draw = some (.byte 0) := by
  rw [hostReply_outRead hr, if_neg (Nat.not_lt.mpr hi)]

end

/-- A PayWrite in RUN or at PAY_CAP and above is dropped (R62, R137). -/
theorem hostEffect_payWrite_dropped {b : Block P.cw} {i : Nat} (B : Byte)
    (h : b.runState = .run ∨ P.payCap ≤ i) : hostEffect P (.payWrite i B) b = b := by
  rcases h with hr | hi
  · exact hostEffect_of_run hr nofun
  · exact hostEffect_payWrite_beyond hi

/-- A PayWrite changes PAY alone, whether it is dropped or not (R137). -/
theorem hostEffect_payWrite_pay (b : Block P.cw) (i : Nat) (B : Byte) :
    ∃ m, hostEffect P (.payWrite i B) b = { b with pay := m } := by
  by_cases hd : b.runState = .run ∨ P.payCap ≤ i
  · exact ⟨b.pay, hostEffect_payWrite_dropped B hd⟩
  · rw [not_or, Nat.not_le] at hd
    exact ⟨_, hostEffect_payWrite hd.1 hd.2⟩

/-- Settles O24: a write is dropped or stores at its index, and a read takes what PAY holds there. -/
theorem payWriteThenPayRead : Obligations.PayWriteThenPayRead := by
  intro P b i B
  obtain ⟨m, hm⟩ := hostEffect_payWrite_pay b i B
  refine ⟨hostEffect_payWrite_dropped B, fun hr hi j draw => ?_, ⟨m, hm⟩, by rw [hm],
    fun hr hi draw => by rw [hostReply_payRead hr, if_neg (Nat.not_lt.mpr hi)]⟩
  have hr' : (writePay b i B).runState ≠ .run := hr
  rw [hostEffect_payWrite hr hi, hostReply_payRead hr', hostReply_payRead hr, payAt_writePay]
  by_cases hj : j = i
  · rw [if_pos hj, if_pos hj, if_pos (hj ▸ hi)]
  · rw [if_neg hj, if_neg hj]

/-- Settles O25: what nothing has written reads as the free byte, and a read outside RUN takes it. -/
theorem unwrittenBytesAreStable : Obligations.UnwrittenBytesAreStable := by
  intro P b i draw hr
  refine ⟨fun hi hm => ?_, fun hi hm => ?_, fun hi => hostReply_outRead_beyond hr hi draw⟩
  · rw [hostReply_payRead hr, if_pos hi, payAt, hm, Option.getD_none]
  · rw [hostReply_outRead_below hr hi, outAt, hm, Option.getD_none]

/-- Settles O47: OutRead takes what OUT holds, and after a run that decodes OUT holds the symbols. -/
theorem outReadReturnsOut : Obligations.OutReadReturnsOut := by
  intro P b i draw
  refine ⟨rfl, fun hr hi => hostReply_outRead_below hr hi draw,
    fun hr hi => hostReply_outRead_beyond hr hi draw, fun m v hr hm hi => ?_,
    fun T xs hb hT hdec hi => ?_⟩
  · rw [hostReply_outRead_below hr hi, outAt, hm, Memory.read_write_same, Option.getD_some]
  · obtain ⟨c, hrun, hdecodes, -⟩ := runDecodesTheTree.1 P b T hb hT
    obtain ⟨hdone, hout⟩ := hdecodes xs hdec
    obtain ⟨-, -, ho, -⟩ := hb
    refine ⟨c, hrun, hdone, outAt c i, by simp [← hout, outBytes, hi], ?_⟩
    exact hostReply_outRead_below (by simp [hdone]) (hi.trans_le ho) draw

/-! ### START and the register writes -/

/-- START does to the block what `startRun` does, whatever STATE is. -/
theorem exec_start (s : State) : exec .start s = .next (s.withBlock (startRun Config.params s.toBlock)) :=
  exec_eq .start s

/-- Settles O17: the outcomes of START in the order of its tests. -/
theorem startBeginsARun : Obligations.StartBeginsARun := by
  refine ⟨fun v hv => if_pos hv, fun s hr => ?_⟩
  refine ⟨fun hc => ?_, fun ho hp => ⟨fun hz => ?_, fun hz => ?_⟩⟩
  · rw [exec_start, startRun_of_alloc hr hc]; rfl
  · rw [exec_start, startRun_of_zero hr hp hz]; rfl
  · rw [exec_start, startRun_of_count hr ho hp hz]; rfl

/-- Settles O18: in RUN `startRun` keeps the block. -/
theorem startIsDroppedDuringRun : Obligations.StartIsDroppedDuringRun := by
  intro s hr
  rw [exec_start, startRun_of_run hr, State.At.withBlock_self]

/-- Settles O22: in RUN every write is dropped; outside RUN by the number of the register. -/
theorem regWriteStores : Obligations.RegWriteStores := by
  intro P b n v
  refine ⟨fun hr => hostEffect_of_run hr nofun, fun hr => ⟨?_, ?_, ?_, fun hn => ?_, ?_, ?_⟩⟩
  · rintro rfl -
    have hv : v.setWidth 9 = BitVec.ofNat 9 (v.toNat % 512) := BitVec.eq_of_toNat_eq (by simp)
    rw [hostEffect_regWrite hr (by decide), storeReg_root, hv]
  · rintro rfl
    rw [hostEffect_regWrite hr (by decide), storeReg_symcount]
  · rintro rfl
    rw [hostEffect_regWrite hr (by decide), storeReg_paylen]
  · rw [hostEffect_regWrite hr (by omega), storeReg_other b v (by omega)]
  · rintro rfl hv
    exact hostEffect_noCommand hv
  · rintro rfl hv
    exact hostEffect_command b hv

/-- Settles O26: in RUN the block is the same after the operation, so its next step is. -/
theorem hostCannotDisturbARun : Obligations.HostCannotDisturbARun := by
  refine fun P b => ⟨fun hr => ⟨fun op hop => ?_, rfl⟩, fun v hv => hostEffect_noCommand hv⟩
  have hsame := hostEffect_of_run hr hop
  exact ⟨hsame, congrArg (engineStep P) hsame⟩

end Sys2Proof.Machine
end

section
/-! SUPPORT. The environment's codec, settled: the sizes of the tree (R152, R156, R170), the code table
without prefixes (R168), and a compressed buffer decompressed whole (R167) and without its last byte
(R171). -/

namespace Sys2Proof.Machine.Codec

open Sys2Proof Sys2Proof.Machine

variable {P : Params}

/-! ### The sizes of the tree -/

/-- Settles O40: the tree `build` returns has the sizes of R156 for the present byte values, which are the
distinct bytes of the input. -/
theorem treeSize : Obligations.TreeSize := by
  refine fun X => ⟨freq_length X, freq_sum X, ?_, fun hX => ?_⟩
  · rintro rfl
    exact build_of_absent (present_perm_dedup []).eq_nil
  · obtain ⟨B, T, hB, hG⟩ := build_of_present (present_ne_nil hX)
    rw [← (present_perm_dedup X).length_eq]
    exact ⟨B, hB, hG.length, hG.root, hG.leafCount⟩

/-! ### No code is a prefix of another -/

/-- A codeword that is a prefix of a codeword is one of the same symbol: decoding the longer one stops at
the end of the shorter. -/
theorem eq_of_codeword_prefix {T : Tree} {v w : List Bool} {x y : Byte} (hv : IsCodeword T v x)
    (hw : IsCodeword T w y) (h : v <+: w) : x = y := by
  obtain ⟨rest, rfl⟩ := h
  have hx := decodeSymbol_codeword T v rest x hv
  have hy := decodeSymbol_codeword T (v ++ rest) [] y hw
  rw [List.append_nil, hx] at hy
  exact congrArg Prod.fst (Option.some.inj hy)

/-- The code table has one entry per leaf of the tree (R158, R159). -/
theorem codes_syms {syms : List Byte} {B : Built} {T : Tree} (hG : BuiltTree syms B T) :
    (codes B).map Prod.fst = leaves T := by
  rw [codes_eq hG]
  cases T with
  | leaf s => rfl
  | node l r => exact treeCodes_syms (.node l r) []

/-- Settles O41: two entries are codewords of different byte values, so neither is a prefix of the other. -/
theorem codesArePrefixFree : Obligations.CodesArePrefixFree := by
  intro X B hB
  obtain ⟨T, hG⟩ := build_freq hB
  have hpresent : (present (freq X)).Nodup :=
    (present_perm_dedup X).nodup_iff.mpr (List.nodup_dedup X)
  have hsyms : ((codes B).map Prod.fst).Nodup := by
    rw [codes_syms hG]
    exact hG.perm.nodup_iff.mpr hpresent
  refine (List.pairwise_map.mp hsyms).imp_of_mem fun {p q} hp hq hne => ?_
  have hcp := codes_codeword hG hp
  have hcq := codes_codeword hG hq
  exact ⟨fun h => hne (eq_of_codeword_prefix hcp hcq h),
    fun h => hne (eq_of_codeword_prefix hcq hcp h).symm⟩

/-! ### A compressed buffer, whole -/

/-- Settles O44: a compressed buffer is the one with nothing after it. -/
theorem roundTrip : Obligations.RoundTrip := by
  intro P b X hP hc hr hlen ho hp
  have h := decompress_append (b := b) [] hP hc hr hlen ho (by rwa [List.append_nil])
  rw [List.append_nil] at h
  exact ⟨_, if_pos hlen, h⟩

/-! ### A compressed buffer without its last byte -/

/-- Bits after those a walk has read are left over. -/
theorem walk_append_of_some (S : Tree) {w rest : List Bool} (more : List Bool) {x : Byte}
    (h : walk S w = some (x, rest)) : walk S (w ++ more) = some (x, rest ++ more) := by
  induction S generalizing w with
  | leaf s =>
    obtain ⟨rfl, rfl⟩ : s = x ∧ w = rest := by simpa [walk] using h
    simp [walk]
  | node l r ihl ihr =>
    cases w with
    | nil => cases h
    | cons b w => cases b; exacts [ihl h, ihr h]

/-- Bits after those of one symbol are left over. -/
theorem decodeSymbol_append_of_some (T : Tree) {w rest : List Bool} (more : List Bool) {x : Byte}
    (h : decodeSymbol T w = some (x, rest)) :
    decodeSymbol T (w ++ more) = some (x, rest ++ more) := by
  cases T with
  | leaf s =>
    cases w with
    | nil => cases h
    | cons b w =>
      obtain ⟨rfl, rfl⟩ : s = x ∧ w = rest := by simpa [decodeSymbol] using h
      rfl
  | node l r => exact walk_append_of_some (.node l r) more h

/-- Bits after those of `n` symbols are left over. -/
theorem decRest_append_of_some (T : Tree) {n : Nat} {w rest : List Bool} (more : List Bool)
    {xs : List Byte} (h : decRest T n w = some (xs, rest)) :
    decRest T n (w ++ more) = some (xs, rest ++ more) := by
  induction n generalizing w xs with
  | zero =>
    obtain ⟨rfl, rfl⟩ : [] = xs ∧ w = rest := by simpa [decRest] using h
    rfl
  | succ n ih =>
    cases hd : decodeSymbol T w with
    | none => simp [decRest, hd] at h
    | some p =>
      obtain ⟨x, w'⟩ := p
      obtain ⟨ys, hys, rfl⟩ : ∃ ys, decRest T n w' = some (ys, rest) ∧ x :: ys = xs := by
        simpa [decRest, hd] using h
      simp [decRest, decodeSymbol_append_of_some T more hd, ih hys]

/-- Codewords one after the other, cut short, are truncated: had they decoded, the bits cut off would be
left over from the whole, and there the codewords leave nothing. -/
theorem decRest_codewords_cut (T : Tree) {ws : List (List Bool × Byte)} {w : List Bool}
    (h : ∀ v ∈ ws, IsCodeword T v.1 v.2) (hpre : w <+: (ws.map Prod.fst).flatten)
    (hlen : w.length < (ws.map Prod.fst).flatten.length) : decRest T ws.length w = none := by
  obtain ⟨more, hmore⟩ := hpre
  refine Option.eq_none_iff_forall_ne_some.mpr fun ⟨xs, rest⟩ hsome => ?_
  have hall := decRest_codewords T ws [] h
  rw [List.append_nil, ← hmore, decRest_append_of_some T more hsome] at hall
  have hnil : rest ++ more = [] := congrArg Prod.snd (Option.some.inj hall)
  rw [← hmore, (List.append_eq_nil_iff.mp hnil).2, List.append_nil] at hlen
  exact lt_irrefl _ hlen

/-- A bit string with a bit packs into at least one byte (R160). -/
theorem pack_ne_nil {bits : List Bool} (h : bits ≠ []) : pack bits ≠ [] := by
  have hpos := List.length_pos_iff.mpr h
  refine List.ne_nil_of_length_pos ?_
  rw [pack_length]
  omega

/-- The bits of a packed bit string without its last byte are a proper prefix of it (R160). -/
theorem bitsOf_pack_dropLast {bits : List Bool} (h : bits ≠ []) :
    bitsOf (pack bits).dropLast <+: bits ∧ (bitsOf (pack bits).dropLast).length < bits.length := by
  have hpos : 0 < bits.length := List.length_pos_iff.mpr h
  have hlt : (bitsOf (pack bits).dropLast).length < bits.length := by
    simp only [bitsOf, List.length_map, List.length_range, List.length_dropLast, pack_length]
    omega
  have hpre : bitsOf (pack bits).dropLast <+: bitsOf (pack bits) :=
    ⟨_, by rw [← bitsOf_append, List.dropLast_append_getLast (pack_ne_nil h)]⟩
  have hbits : bits <+: bitsOf (pack bits) := bitsOf_pack bits ▸ List.prefix_append _ _
  exact ⟨List.prefix_of_prefix_length_le hpre hbits hlt.le, hlt⟩

section
variable {X : List Byte} {B : Built} (hX : X ≠ []) (hB : build (freq X) = some B)
include hX hB

/-- The codes of a non-empty input have a bit. -/
theorem encodeBits_ne_nil : encodeBits (codes B) X ≠ [] := by
  have hle := (codeLengthsAreBounded X B hB).2.1
  have hpos := List.length_pos_iff.mpr hX
  exact List.ne_nil_of_length_pos (by omega)

/-- The payload of a non-empty input has a byte. -/
theorem payloadOf_ne_nil : payloadOf X ≠ [] := by
  rw [payloadOf, hB]
  exact pack_ne_nil (encodeBits_ne_nil hX hB)

/-- The payload of a non-empty input without its last byte does not hold all of its codes. -/
theorem decRest_payload_dropLast {T : Tree} (hG : BuiltTree (present (freq X)) B T) :
    decRest T X.length (bitsOf (payloadOf X).dropLast) = none := by
  obtain ⟨hpre, hlen⟩ := bitsOf_pack_dropLast (encodeBits_ne_nil hX hB)
  rw [payloadOf, hB, ← List.length_map (f := fun x => (codeOf (codes B) x, x))]
  exact decRest_codewords_cut T (codewords_of_input hG) (encodeBits_eq _ X ▸ hpre)
    (encodeBits_eq _ X ▸ hlen)

end

/-- The block loaded with the tree of `X` and its payload without the last byte runs out of bits. -/
theorem decodeOnBlock_payload_dropLast {b : Block P.cw} {X : List Byte} {B : Built} (hP : P.wf)
    (hc : P.carriesHandles) (hr : b.runState ≠ .run) (hX : X ≠ []) (hB : build (freq X) = some B)
    (ho : X.length ≤ P.outCap) (hp : (payloadOf X).length ≤ P.payCap) :
    decodeOnBlock P b B X.length (payloadOf X).dropLast = .failed .truncatedPayload := by
  obtain ⟨T, hG⟩ := build_freq hB
  have hcap : (payloadOf X).dropLast.length ≤ P.payCap := by rw [List.length_dropLast]; omega
  obtain ⟨c, hst, hT, hsym, hlen, hbits, hdec⟩ := loaded_run hP hc hr hX hG ho hcap
  obtain ⟨d, hrun, herr, htrunc⟩ := startRun_truncates hst hT
    (by rw [hsym, hbits]; exact decRest_payload_dropLast hX hB hG)
  rw [hdec, ← hlen, hrun, mapResult, herr, htrunc]

/-- A whole header of a non-empty input passes the tests of R163: what follows it is decoded on the block. -/
theorem decompress_header_append {b : Block P.cw} {X : List Byte} {B : Built} (bytes : List Byte)
    (hP : P.wf) (hlen : X.length ≤ 2 ^ P.cw - 1) (hX : X ≠ []) (hB : build (freq X) = some B) :
    decompress P b (header P X ++ bytes) = decodeOnBlock P b B X.length bytes := by
  have hlong : ¬ (header P X ++ bytes).length < headerLen P := by
    rw [List.length_append, header_length]; omega
  rw [decompress, if_neg hlong, headerTable_of hP hlen, headerCount_of hP hlen, freq_sum,
    if_neg (not_not.mpr rfl), payloadPart_of, if_neg (mt List.length_eq_zero_iff.mp hX), hB]

/-- `compress` answers the header and the payload, of an input whose count fits a header integer (R161). -/
theorem compress_eq_ok {X Z : List Byte} (h : compress P X = .ok Z) :
    X.length ≤ 2 ^ P.cw - 1 ∧ Z = header P X ++ payloadOf X := by
  rw [compress] at h
  split at h
  next hlen => exact ⟨hlen, (Result.ok.inj h).symm⟩
  next => cases h

/-- Settles O45: the header is whole, and the codes that follow it are cut short. -/
theorem truncationIsDetected : Obligations.TruncationIsDetected := by
  intro P b X Z hP hc hr hX ho hp hZ
  obtain ⟨hlen, rfl⟩ := compress_eq_ok hZ
  obtain ⟨B, -, hB, -⟩ := build_of_present (present_ne_nil hX)
  rw [List.dropLast_append_of_ne_nil (payloadOf_ne_nil hX hB),
    decompress_header_append _ hP hlen hX hB]
  exact decodeOnBlock_payload_dropLast hP hc hr hX hB ho hp

end Sys2Proof.Machine.Codec
end
